-- ==== Sys2Proof/Word.lean ====
section
/-! DEFINITION. The word and byte types of the machine (00_scope.md R4, R6). -/

namespace Sys2Proof

/-- A word: 16 bits, bit 0 the least significant (00_scope.md R6). Registers, memory words, addresses and
instructions are words. -/
abbrev Word := BitVec 16

/-- A byte of the byte view of the RAM (20_memory.md R37). -/
abbrev Byte := BitVec 8

end Sys2Proof
end

