-- ==== Sys2Proof/Syntax.lean ====
section
/-! DEFINITION. The instructions of the machine, one constructor per row of spec/opcode_table.json, and the small types
of their parts (30_encoding.md R51 to R61). -/

namespace Sys2Proof

/-- A register number, 0 to 15: every value is legal in every register field (10_state.md R10). -/
abbrev Reg := Fin 16

/-- The stack pointer `x[13]`, alias `sr` (10_state.md R11). -/
abbrev Reg.sp : Reg := 13

/-- The link register `x[14]`, alias `lr`, by convention only (10_state.md R11). -/
abbrev Reg.lr : Reg := 14

/-- The program counter `x[15]`, alias `pc` (10_state.md R13). -/
abbrev Reg.pc : Reg := 15

/-- The six instruction families (30_encoding.md R60). -/
inductive Family where
  | add
  | mul
  | xor
  | shf
  | strPush
  | ldrPop
deriving DecidableEq, Repr

/-- The six shift and rotate operations of the Shf family (30_encoding.md R58). -/
inductive ShiftKind where
  | lsr
  | asr
  | ror
  | lsl
  | asl
  | rol
deriving DecidableEq, Repr

/-- Operand2 (40_instruction_cycle.md R83): a register, or an immediate already extended to a word by the row of
30_encoding.md R57 for the family. -/
inductive Operand2 where
  | reg (rm : Reg)
  | imm (v : Word)
deriving DecidableEq, Repr

/-- The 24 instructions (30_encoding.md R61), in the order of spec/opcode_table.json. Suffix `R`: register form, `I`:
immediate form; `rd` is bits 11:8, `rm` bits 3:0, `imm7` bits 6:0, `imm4` bits 3:0 of the word. The operand types
hold exactly the values the fields admit (log 21). -/
inductive Instr where
  | addR (rd rm : Reg)
  | addI (rd : Reg) (imm7 : BitVec 7)
  | mulR (rd rm : Reg)
  | mulI (rd : Reg) (imm7 : BitVec 7)
  | xorR (rd rm : Reg)
  | xorI (rd : Reg) (imm7 : BitVec 7)
  | lsrR (rd rm : Reg)
  | lsrI (rd : Reg) (imm4 : BitVec 4)
  | asrR (rd rm : Reg)
  | asrI (rd : Reg) (imm4 : BitVec 4)
  | rorR (rd rm : Reg)
  | rorI (rd : Reg) (imm4 : BitVec 4)
  | lslR (rd rm : Reg)
  | lslI (rd : Reg) (imm4 : BitVec 4)
  | aslR (rd rm : Reg)
  | aslI (rd : Reg) (imm4 : BitVec 4)
  | rolR (rd rm : Reg)
  | rolI (rd : Reg) (imm4 : BitVec 4)
  | strR (rd rm : Reg)
  | strI (rd : Reg) (imm7 : BitVec 7)
  | push (rd : Reg)
  | ldrR (rd rm : Reg)
  | ldrI (rd : Reg) (imm7 : BitVec 7)
  | pop (rd : Reg)
deriving DecidableEq, Repr

/-- Why a word is no instruction (30_encoding.md R61, R62). -/
inductive DecodeFault where
  /-- The opcode nibble belongs to no family (60_exceptions.md R143). -/
  | illegalOpcode
  /-- A Shf word whose mode is `011` or `111` (44_shf.md R122, 60_exceptions.md R147). -/
  | illegalShiftMode
deriving DecidableEq, Repr

/-- One row of spec/opcode_table.json: a word belongs to it iff its bits under `mask` are `pattern`. -/
structure OpcodeRow where
  mnemonic : String
  mask : Word
  pattern : Word
deriving DecidableEq, Repr

/-- The 13 mnemonics of the text form (30_encoding.md R75). -/
inductive Mnemonic where
  | add
  | mul
  | xor
  | lsr
  | asr
  | ror
  | lsl
  | asl
  | rol
  | str
  | push
  | ldr
  | pop
deriving DecidableEq, Repr

/-- A second operand as the text gives it: absent, a register number or a value, of any size. -/
inductive RawOperand where
  | none
  | reg (n : Nat)
  | imm (n : Nat)
deriving DecidableEq, Repr

/-- An instruction as the text gives it, its numbers not checked yet (30_encoding.md R72, R73). -/
structure RawInstr where
  mnemonic : Mnemonic
  rd : Nat
  op2 : RawOperand
deriving DecidableEq, Repr

end Sys2Proof
end

