-- ==== Sys2Proof/Decode.lean ====
section
/-! DEFINITION. The decoder and the encoder (30_encoding.md R50 to R63), and the byte order of a word (20_memory.md R37). -/

namespace Sys2Proof

/-! ## Byte order -/

/-- The byte of a word at the even address: bits 7:0 (20_memory.md R37, decision D9, log 15). -/
def loByte (w : Word) : Byte := w.extractLsb' 0 8

/-- The byte of a word at the odd address: bits 15:8 (20_memory.md R37). -/
def hiByte (w : Word) : Byte := w.extractLsb' 8 8

/-- The word of two bytes, the one at the even address first (20_memory.md R37). -/
def wordOfBytes (lo hi : Byte) : Word := hi ++ lo

/-! ## Fields (30_encoding.md R51, R52) -/

/-- `op = w[15:12]`. -/
def fieldOp (w : Word) : BitVec 4 := w.extractLsb' 12 4

/-- `rd = w[11:8]` (decision D2, log 9). -/
def fieldRd (w : Word) : Reg := (w.extractLsb' 8 4).toFin

/-- The source bit `s = w[7]`. -/
def fieldS (w : Word) : Bool := w.getLsbD 7

/-- The Push or Pop selector `w[6]`, of meaning only where `s` is 0 (30_encoding.md R56). -/
def fieldStack (w : Word) : Bool := w.getLsbD 6

/-- The shift mode `t = w[6:4]` (30_encoding.md R58). -/
def fieldMode (w : Word) : BitVec 3 := w.extractLsb' 4 3

/-- `rm = w[3:0]`. -/
def fieldRm (w : Word) : Reg := (w.extractLsb' 0 4).toFin

/-- `imm7 = w[6:0]`. -/
def fieldImm7 (w : Word) : BitVec 7 := w.extractLsb' 0 7

/-- `imm4 = w[3:0]`. -/
def fieldImm4 (w : Word) : BitVec 4 := w.extractLsb' 0 4

/-! ## The maps of opcodes and modes -/

/-- The family of an opcode nibble, none for the ten unassigned values (30_encoding.md R60). -/
def familyOf (op : BitVec 4) : Option Family :=
  if op = 0b1100#4 then some .add
  else if op = 0b0111#4 then some .mul
  else if op = 0b0101#4 then some .xor
  else if op = 0b1110#4 then some .shf
  else if op = 0b1101#4 then some .strPush
  else if op = 0b1011#4 then some .ldrPop
  else none

/-- The operation of a shift mode, none for `011` and `111` (30_encoding.md R58, decision D5, log 12). -/
def shiftKindOf (t : BitVec 3) : Option ShiftKind :=
  if t = 0b000#3 then some .lsr
  else if t = 0b001#3 then some .asr
  else if t = 0b010#3 then some .ror
  else if t = 0b100#3 then some .lsl
  else if t = 0b101#3 then some .asl
  else if t = 0b110#3 then some .rol
  else none

/-- The register form of a shift. -/
def shiftR : ShiftKind → Reg → Reg → Instr
  | .lsr => .lsrR
  | .asr => .asrR
  | .ror => .rorR
  | .lsl => .lslR
  | .asl => .aslR
  | .rol => .rolR

/-- The immediate form of a shift. -/
def shiftI : ShiftKind → Reg → BitVec 4 → Instr
  | .lsr => .lsrI
  | .asr => .asrI
  | .ror => .rorI
  | .lsl => .lslI
  | .asl => .aslI
  | .rol => .rolI

/-! ## The decoder -/

/-- The instruction of a word of a known family (30_encoding.md R61, one case of its `case op of` each). -/
def decodeFamily (f : Family) (w : Word) : Except DecodeFault Instr :=
  match f with
  | .add => .ok (if fieldS w then .addI (fieldRd w) (fieldImm7 w) else .addR (fieldRd w) (fieldRm w))
  | .mul => .ok (if fieldS w then .mulI (fieldRd w) (fieldImm7 w) else .mulR (fieldRd w) (fieldRm w))
  | .xor => .ok (if fieldS w then .xorI (fieldRd w) (fieldImm7 w) else .xorR (fieldRd w) (fieldRm w))
  | .shf =>
    match shiftKindOf (fieldMode w) with
    | none => .error .illegalShiftMode
    | some k =>
      .ok (if fieldS w then shiftI k (fieldRd w) (fieldImm4 w) else shiftR k (fieldRd w) (fieldRm w))
  | .strPush =>
    .ok (if fieldS w then .strI (fieldRd w) (fieldImm7 w)
      else if fieldStack w then .push (fieldRd w) else .strR (fieldRd w) (fieldRm w))
  | .ldrPop =>
    .ok (if fieldS w then .ldrI (fieldRd w) (fieldImm7 w)
      else if fieldStack w then .pop (fieldRd w) else .ldrR (fieldRd w) (fieldRm w))

/-- `Decode` of 30_encoding.md R61: total on the 65536 words. -/
def decode (w : Word) : Except DecodeFault Instr :=
  match familyOf (fieldOp w) with
  | none => .error .illegalOpcode
  | some f => decodeFamily f w

/-- The decoder over the two bytes of an instruction, the one at the even address first. -/
def decodeBytes (lo hi : Byte) : Except DecodeFault Instr := decode (wordOfBytes lo hi)

/-- The instruction the decoder reads from an instruction whose `nbits` bits are `w`, numbered as
spec/opcode_table.json numbers them; bits above `nbits` are 0. -/
def decodeTableWord (nbits w : Nat) : Option Instr :=
  let bits : Word := BitVec.ofNat 16 (w % 2 ^ nbits)
  match decodeBytes (loByte bits) (hiByte bits) with
  | .ok i => some i
  | .error _ => none

/-! ## The encoder -/

/-- The four bits of a register number. -/
def regBits (r : Reg) : BitVec 4 := BitVec.ofNat 4 r.val

/-- Format AR: bits 6:4 are canonical 0 (30_encoding.md R53, R59). -/
def formatAR (op : BitVec 4) (rd rm : Reg) : Word := op ++ regBits rd ++ 0b0#1 ++ 0b000#3 ++ regBits rm

/-- Formats AI and MI (30_encoding.md R54, R56). -/
def formatI7 (op : BitVec 4) (rd : Reg) (imm7 : BitVec 7) : Word := op ++ regBits rd ++ 0b1#1 ++ imm7

/-- Format SR (30_encoding.md R55). -/
def formatSR (mode : BitVec 3) (rd rm : Reg) : Word := 0b1110#4 ++ regBits rd ++ 0b0#1 ++ mode ++ regBits rm

/-- Format SI (30_encoding.md R55). -/
def formatSI (mode : BitVec 3) (rd : Reg) (imm4 : BitVec 4) : Word := 0b1110#4 ++ regBits rd ++ 0b1#1 ++ mode ++ imm4

/-- Format MR: bits 5:4 are canonical 0 (30_encoding.md R56, R59). -/
def formatMR (op : BitVec 4) (rd rm : Reg) : Word := op ++ regBits rd ++ 0b0#1 ++ 0b0#1 ++ 0b00#2 ++ regBits rm

/-- Format MP: bits 5:0 are canonical 0 (30_encoding.md R56, R59, decision D19, log 19). -/
def formatMP (op : BitVec 4) (rd : Reg) : Word := op ++ regBits rd ++ 0b0#1 ++ 0b1#1 ++ 0b000000#6

/-- `Encode` of 30_encoding.md R63: the canonical word of an instruction. -/
def encode : Instr → Word
  | .addR rd rm => formatAR 0b1100#4 rd rm
  | .addI rd v => formatI7 0b1100#4 rd v
  | .mulR rd rm => formatAR 0b0111#4 rd rm
  | .mulI rd v => formatI7 0b0111#4 rd v
  | .xorR rd rm => formatAR 0b0101#4 rd rm
  | .xorI rd v => formatI7 0b0101#4 rd v
  | .lsrR rd rm => formatSR 0b000#3 rd rm
  | .lsrI rd v => formatSI 0b000#3 rd v
  | .asrR rd rm => formatSR 0b001#3 rd rm
  | .asrI rd v => formatSI 0b001#3 rd v
  | .rorR rd rm => formatSR 0b010#3 rd rm
  | .rorI rd v => formatSI 0b010#3 rd v
  | .lslR rd rm => formatSR 0b100#3 rd rm
  | .lslI rd v => formatSI 0b100#3 rd v
  | .aslR rd rm => formatSR 0b101#3 rd rm
  | .aslI rd v => formatSI 0b101#3 rd v
  | .rolR rd rm => formatSR 0b110#3 rd rm
  | .rolI rd v => formatSI 0b110#3 rd v
  | .strR rd rm => formatMR 0b1101#4 rd rm
  | .strI rd v => formatI7 0b1101#4 rd v
  | .push rd => formatMP 0b1101#4 rd
  | .ldrR rd rm => formatMR 0b1011#4 rd rm
  | .ldrI rd v => formatI7 0b1011#4 rd v
  | .pop rd => formatMP 0b1011#4 rd

/-- `canonicalize` of 30_encoding.md R63, by format: AR clears bits 6:4, MR bits 5:4, MP bits 5:0; every other word
(one that is no instruction included) stays. -/
def canonicalize (w : Word) : Word :=
  match familyOf (fieldOp w) with
  | none => w
  | some .shf => w
  | some .add => if fieldS w then w else w &&& 0xFF8F#16
  | some .mul => if fieldS w then w else w &&& 0xFF8F#16
  | some .xor => if fieldS w then w else w &&& 0xFF8F#16
  | some .strPush => if fieldS w then w else if fieldStack w then w &&& 0xFFC0#16 else w &&& 0xFFCF#16
  | some .ldrPop => if fieldS w then w else if fieldStack w then w &&& 0xFFC0#16 else w &&& 0xFFCF#16

/-! ## The opcode table -/

/-- The row of spec/opcode_table.json an instruction belongs to. -/
def rowOf : Instr → OpcodeRow
  | .addR _ _ => ⟨"ADD_R", 0xF080#16, 0xC000#16⟩
  | .addI _ _ => ⟨"ADD_I", 0xF080#16, 0xC080#16⟩
  | .mulR _ _ => ⟨"MUL_R", 0xF080#16, 0x7000#16⟩
  | .mulI _ _ => ⟨"MUL_I", 0xF080#16, 0x7080#16⟩
  | .xorR _ _ => ⟨"XOR_R", 0xF080#16, 0x5000#16⟩
  | .xorI _ _ => ⟨"XOR_I", 0xF080#16, 0x5080#16⟩
  | .lsrR _ _ => ⟨"LSR_R", 0xF0F0#16, 0xE000#16⟩
  | .lsrI _ _ => ⟨"LSR_I", 0xF0F0#16, 0xE080#16⟩
  | .asrR _ _ => ⟨"ASR_R", 0xF0F0#16, 0xE010#16⟩
  | .asrI _ _ => ⟨"ASR_I", 0xF0F0#16, 0xE090#16⟩
  | .rorR _ _ => ⟨"ROR_R", 0xF0F0#16, 0xE020#16⟩
  | .rorI _ _ => ⟨"ROR_I", 0xF0F0#16, 0xE0A0#16⟩
  | .lslR _ _ => ⟨"LSL_R", 0xF0F0#16, 0xE040#16⟩
  | .lslI _ _ => ⟨"LSL_I", 0xF0F0#16, 0xE0C0#16⟩
  | .aslR _ _ => ⟨"ASL_R", 0xF0F0#16, 0xE050#16⟩
  | .aslI _ _ => ⟨"ASL_I", 0xF0F0#16, 0xE0D0#16⟩
  | .rolR _ _ => ⟨"ROL_R", 0xF0F0#16, 0xE060#16⟩
  | .rolI _ _ => ⟨"ROL_I", 0xF0F0#16, 0xE0E0#16⟩
  | .strR _ _ => ⟨"STR_R", 0xF0C0#16, 0xD000#16⟩
  | .strI _ _ => ⟨"STR_I", 0xF080#16, 0xD080#16⟩
  | .push _ => ⟨"PUSH", 0xF0C0#16, 0xD040#16⟩
  | .ldrR _ _ => ⟨"LDR_R", 0xF0C0#16, 0xB000#16⟩
  | .ldrI _ _ => ⟨"LDR_I", 0xF080#16, 0xB080#16⟩
  | .pop _ => ⟨"POP", 0xF0C0#16, 0xB040#16⟩

/-- One instruction of each row, all its operands 0. -/
def rowSamples : List Instr :=
  [.addR 0 0, .addI 0 0, .mulR 0 0, .mulI 0 0, .xorR 0 0, .xorI 0 0, .lsrR 0 0, .lsrI 0 0, .asrR 0 0, .asrI 0 0,
    .rorR 0 0, .rorI 0 0, .lslR 0 0, .lslI 0 0, .aslR 0 0, .aslI 0 0, .rolR 0 0, .rolI 0 0, .strR 0 0, .strI 0 0,
    .push 0, .ldrR 0 0, .ldrI 0 0, .pop 0]

/-- The 24 rows of spec/opcode_table.json. -/
def opcodeTable : List OpcodeRow := rowSamples.map rowOf

/-- A word belongs to a row: its bits under the row's mask are the row's pattern. -/
abbrev inRow (row : OpcodeRow) (w : Word) : Prop := w &&& row.mask = row.pattern

end Sys2Proof
end

