-- ==== Sys2Proof/Config.lean ====
section
/-! DEFINITION. What an implementation fixes (00_scope.md R4, R5). `PCREL_BASE`, the third parameter of R5, stands in
Machine/Operands.lean as `pcrelBase`, where a later repair can mend it. -/

namespace Sys2Proof.Config

/-- The number of bytes of a word (00_scope.md R4: "two bytes per word"). -/
abbrev wordBytes : Nat := 2

/-- The RAM sizes 00_scope.md R5 allows: even, at least 2, at most 65536. -/
abbrev legalRamSize (n : Nat) : Prop := n % 2 = 0 ∧ 2 ≤ n ∧ n ≤ 65536

/-- The `RAM_SIZE` of `State.reset`. DESIGN CHOICE, unsafe where a claim rests on it: 00_scope.md R5 leaves
`RAM_SIZE` OPEN; 65536 is what 95_test_vectors.md takes where it gives none (log 4). -/
abbrev defaultRamSize : Nat := 65536

/-- The byte an address that memory does not list reads as. DESIGN CHOICE, unsafe where a claim rests on it:
00_scope.md R5 leaves `INIT_MEM` OPEN; 95_test_vectors.md takes 0 for every word it does not give (log 5). -/
abbrev blankByte : Byte := 0#8

end Sys2Proof.Config
end

