-- ==== Sys2Proof/Machine/State.lean ====
section
/-! DEFINITION. The state of the machine as plain data (10_state.md R10 to R23), and the machine after reset. -/

namespace Sys2Proof.Machine

/-- The four flag bits of the status register `SR` (10_state.md R16); `Flags.sr` of Flags.lean packs them. -/
structure Flags where
  /-- zero, bit 0 -/
  z : Bool
  /-- negative, bit 1 -/
  n : Bool
  /-- overflow, bit 2 -/
  v : Bool
  /-- carry, bit 3 -/
  c : Bool
deriving DecidableEq, Repr

/-- The kind of a memory access, part of what an access fault records (60_exceptions.md R142). -/
inductive AccessKind where
  | fetch
  | load
  | store
deriving DecidableEq, Repr

/-- Cause and info of a fatal condition (60_exceptions.md R142, decision D12, log 2). -/
inductive Cause where
  /-- Code 1 (60_exceptions.md R143): the address of the word, and the word. -/
  | illegalOpcode (pc word : Word)
  /-- Code 2 (60_exceptions.md R147): the address of the word, and the word. -/
  | illegalShiftMode (pc word : Word)
  /-- Code 3 (60_exceptions.md R144, R145): the address of the instruction, the odd address, the access. -/
  | misalignedAccess (pc addr : Word) (kind : AccessKind)
  /-- Code 4 (60_exceptions.md R144, R146): the address of the instruction, the address at or above `RAM_SIZE`, the
  access. -/
  | outOfBoundsAccess (pc addr : Word) (kind : AccessKind)
deriving DecidableEq, Repr

/-- The run status (10_state.md R21, decision D11, log 1). -/
inductive RunStatus where
  | run
  | fault (cause : Cause)
deriving DecidableEq, Repr

/-- The RAM as cells (address, byte); an address not listed reads as `Config.blankByte`. -/
abbrev Memory := List Host.Cell

/-- The canonical form of a memory: addresses strictly rising, no cell equal to what an unlisted address reads as. -/
abbrev Memory.wf (m : Memory) : Prop :=
  m.Pairwise (fun a b => a.1 < b.1) ∧ ∀ c ∈ m, c.2 ≠ Config.blankByte

/-- The whole state (10_state.md R10 to R22). -/
structure State where
  /-- The register file `x[0..15]`; `x[15]` is the program counter (10_state.md R10, R13). -/
  regs : Vector Word 16
  /-- The status register `SR` (10_state.md R16). -/
  flags : Flags
  /-- The RAM (10_state.md R20). -/
  mem : Memory
  /-- The run status (10_state.md R21). -/
  status : RunStatus
  /-- `RAM_SIZE` in bytes. The MODEL's own field, not the spec's state: configuration (00_scope.md R5) that no step and
  no reset changes, held here so that statements hold for every size (log 4). -/
  ramSize : Nat
deriving DecidableEq, Repr

/-- The faults that end a run outside the machine's own state. There is none: each of the spec's four fatal conditions
is taken into `State.status` as 60_exceptions.md R141 describes (log 1), so this type has no constructor. Safe: no
step can answer a fault. -/
inductive Fault where
deriving DecidableEq, Repr

/-- Why a step could have no meaning. -/
inductive Refusal where
  /-- An instruction without a meaning yet, by its mnemonic; raised by `exec` alone. No arm raises it. Safe: a refused
  step proves nothing about the machine. -/
  | notModelled (mnemonic : String)
deriving DecidableEq, Repr

/-- The machine right after reset (10_state.md R23, 70_reset_and_hazards.md R165): every register 0, every flag 0, status
`RUN`. The spec leaves `INIT_MEM` and `RAM_SIZE` OPEN: here memory lists nothing (every byte 0) and `RAM_SIZE` is 65536
(DESIGN CHOICE, logs 4 and 5); `State.resetTo` of Interface.lean takes any contents. -/
def State.reset : State where
  regs := Vector.replicate 16 0#16
  flags := ⟨false, false, false, false⟩
  mem := []
  status := .run
  ramSize := Config.defaultRamSize

end Sys2Proof.Machine
end

