-- ==== Sys2Proof/Machine/Flags.lean ====
section
/-! DEFINITION. The flag computations (43_xor.md R102, 44_shf.md R107) and the layout of `SR` (10_state.md R16). -/

namespace Sys2Proof.Machine

/-- `SetFlagsXor(r)` (43_xor.md R102): Z and N of the result, V and C cleared. -/
def flagsXor (r : Word) : Flags where
  z := r == 0#16
  n := r.getLsbD 15
  v := false
  c := false

/-- `SetFlagsShf(r, c)` (44_shf.md R107): Z and N of the result, C the carryout, V carryout XOR N. -/
def flagsShf (r : Word) (c : Bool) : Flags where
  z := r == 0#16
  n := r.getLsbD 15
  v := c ^^ r.getLsbD 15
  c := c

/-- `SR` as 4 bits: Z bit 0, N bit 1, V bit 2, C bit 3 (10_state.md R16, decision D1, log 7). -/
def Flags.sr (f : Flags) : BitVec 4 :=
  BitVec.ofBool f.c ++ BitVec.ofBool f.v ++ BitVec.ofBool f.n ++ BitVec.ofBool f.z

/-- `SR` shown as a word: bits 15:4 are 0 (10_state.md R16). -/
def Flags.srWord (f : Flags) : Word := f.sr.setWidth 16

end Sys2Proof.Machine
end

