-- ==== Sys2Proof/Machine/Ops.lean ====
section
/-! DEFINITION. The shared operations: registers, memory, taking a fault. -/

namespace Sys2Proof.Machine

/-- What a meaning and a step answer. -/
abbrev Result := Host.Outcome State Fault Refusal

/-! ## Registers -/

/-- `x[r]` (10_state.md R10): no register is hard-wired. -/
def State.reg (s : State) (r : Reg) : Word := s.regs[r]

/-- `x[r] <- v` (10_state.md R10). -/
def State.setReg (s : State) (r : Reg) (v : Word) : State :=
  { s with regs := s.regs.set r v }

/-- `pc`, another name for `x[15]` (10_state.md R13, decision D3, log 10). -/
def State.pc (s : State) : Word := s.reg Reg.pc

/-- A write of all four flags (10_state.md R17). -/
def State.setFlags (s : State) (f : Flags) : State := { s with flags := f }

/-! ## Memory as bytes and words -/

/-- The byte at an address; an address not listed holds `Config.blankByte`. -/
def Memory.read : Memory → Nat → Byte
  | [], _ => Config.blankByte
  | (k, b) :: m, a => if k = a then b else Memory.read m a

/-- The cell (a, b) put in its place, in the stead of a cell for the same address. -/
def Memory.insert : Memory → Nat → Byte → Memory
  | [], a, b => [(a, b)]
  | (k, c) :: m, a, b =>
    if a < k then (a, b) :: (k, c) :: m
    else if a = k then (a, b) :: m
    else (k, c) :: Memory.insert m a b

/-- No cell for the address. -/
def Memory.erase (m : Memory) (a : Nat) : Memory := m.filter (fun c => c.1 != a)

/-- A write of one byte, keeping the canonical form: the byte an unlisted address reads as is not listed. -/
def Memory.write (m : Memory) (a : Nat) (b : Byte) : Memory :=
  if b = Config.blankByte then Memory.erase m a else Memory.insert m a b

/-- `M[a]`, the word at byte address `a` (10_state.md R20, 20_memory.md R37). -/
def Memory.readWord (m : Memory) (a : Nat) : Word := wordOfBytes (Memory.read m a) (Memory.read m (a + 1))

/-- `M[a] <- v` (20_memory.md R33, R37). -/
def Memory.writeWord (m : Memory) (a : Nat) (v : Word) : Memory :=
  Memory.write (Memory.write m a (loByte v)) (a + 1) (hiByte v)

/-! ## Taking a fault -/

/-- Fault entry (60_exceptions.md R141): the status becomes FAULT with cause and info; registers, flags and memory stay
as they were when the step began, `x[15]` the address of the faulting instruction. There is no return from it
(60_exceptions.md R150); reset alone leaves it (`State.resetTo`). -/
def State.raiseFault (s : State) (c : Cause) : State := { s with status := .fault c }

/-- The outcome of an execution that may raise a fault: the new state, or the fault taken in the state `s` of the start
of the step, which discards whatever the execution wrote (00_scope.md R7, 60_exceptions.md R141). -/
def State.settle (s : State) (e : Except Cause State) : Result :=
  match e with
  | .ok t => .next t
  | .error c => .next (s.raiseFault c)

/-! ## Memory accesses -/

/-- The fault of a 16-bit access at `a`, alignment before bounds (20_memory.md R32, R33, R36); none where the access is
performed. -/
def State.accessFault (s : State) (k : AccessKind) (a : Word) : Option Cause :=
  if a.getLsbD 0 then some (.misalignedAccess s.pc a k)
  else if s.ramSize ≤ a.toNat then some (.outOfBoundsAccess s.pc a k)
  else none

/-- `MemRead(a, 2)` (20_memory.md R32). -/
def State.memRead (s : State) (k : AccessKind) (a : Word) : Except Cause Word :=
  match s.accessFault k a with
  | some c => .error c
  | none => .ok (Memory.readWord s.mem a.toNat)

/-- `MemWrite(a, 2, v)` (20_memory.md R33). -/
def State.memWrite (s : State) (a v : Word) : Except Cause State :=
  match s.accessFault .store a with
  | some c => .error c
  | none => .ok { s with mem := Memory.writeWord s.mem a.toNat v }

end Sys2Proof.Machine
end

