-- ==== Sys2Proof/Machine/Operands.lean ====
section
/-! DEFINITION. Operand values (40_instruction_cycle.md R83, 30_encoding.md R57), effective addresses (45_str_push.md
R125), and the operations on two operands (41_add.md, 42_mul.md, 43_xor.md, 44_shf.md R106). -/

namespace Sys2Proof.Machine

/-! ## Extension of immediates (00_scope.md R6, 30_encoding.md R57) -/

/-- `zext_7`: the ADD immediate, 0 to 127. -/
def zext7 (f : BitVec 7) : Word := f.setWidth 16

/-- `sext_7`: the MUL, XOR, STR and LDR immediates, -64 to 63. -/
def sext7 (f : BitVec 7) : Word := f.signExtend 16

/-- `Op2Value` (40_instruction_cycle.md R83). -/
def State.op2Value (s : State) : Operand2 → Word
  | .reg rm => s.reg rm
  | .imm v => v

/-! ## Effective addresses (45_str_push.md R125) -/

/-- `PCREL_BASE` (00_scope.md R5, decision D6, log 13): the base of PC-relative addressing is the next instruction. -/
def pcrelBase : Word := 2#16

/-- Register mode: the register holds the byte address. -/
def State.eaReg (s : State) (rm : Reg) : Word := s.reg rm

/-- PC-relative mode: `(x[15] + PCREL_BASE + 2 * sext_7(imm7)) mod 2^16`. -/
def State.eaPcRel (s : State) (imm7 : BitVec 7) : Word := s.pc + pcrelBase + 2#16 * sext7 imm7

/-- Stack mode of PUSH: `(x[13] - 2) mod 2^16`. -/
def State.eaPush (s : State) : Word := s.reg Reg.sp - 2#16

/-- Stack mode of POP: `x[13]`. -/
def State.eaPop (s : State) : Word := s.reg Reg.sp

/-! ## Operations -/

/-- Addition modulo 2^16 (41_add.md R92). -/
def addWord (a b : Word) : Word := a + b

/-- The low 16 bits of the product (42_mul.md R97). -/
def mulWord (a b : Word) : Word := a * b

/-- Exclusive or (43_xor.md R100). -/
def xorWord (a b : Word) : Word := a ^^^ b

/-- The result of a shift by 1 to 15 places (44_shf.md R106). -/
def shiftResult (k : ShiftKind) (v : Word) (n : Nat) : Word :=
  match k with
  | .lsr => v >>> n
  | .asr => v.sshiftRight n
  | .ror => (v >>> n) ||| (v <<< (16 - n))
  | .lsl => v <<< n
  | .asl => v <<< n
  | .rol => (v <<< n) ||| (v >>> (16 - n))

/-- The carryout of a shift by 1 to 15 places: the last bit shifted out, 0 for rotates (44_shf.md R106). -/
def shiftCarry (k : ShiftKind) (v : Word) (n : Nat) : Bool :=
  match k with
  | .lsr => v.getLsbD (n - 1)
  | .asr => v.getLsbD (n - 1)
  | .ror => false
  | .lsl => v.getLsbD (16 - n)
  | .asl => v.getLsbD (16 - n)
  | .rol => false

/-- `ShiftOp(kind, v, n)` (44_shf.md R106, decision D10, log 16): result and carryout. -/
def shiftOp (k : ShiftKind) (v : Word) (n : Nat) : Word × Bool :=
  if 16 ≤ n then (0#16, false)
  else if n = 0 then (v, false)
  else (shiftResult k v n, shiftCarry k v n)

/-! ## What the meanings share -/

/-- `x[rd] <- f(x[rd], op2)`, flags kept; both operands are read before the write (40_instruction_cycle.md R85). -/
def State.combine (s : State) (f : Word → Word → Word) (rd : Reg) (o : Operand2) : State :=
  s.setReg rd (f (s.reg rd) (s.op2Value o))

/-- `x[rd] <- x[rd] XOR op2` with the flags of 43_xor.md R102. -/
def State.combineXor (s : State) (rd : Reg) (o : Operand2) : State :=
  let r := xorWord (s.reg rd) (s.op2Value o)
  (s.setReg rd r).setFlags (flagsXor r)

/-- `x[rd]` shifted by `n`, with the flags of 44_shf.md R107. -/
def State.shiftBy (s : State) (k : ShiftKind) (rd : Reg) (n : Nat) : State :=
  let rc := shiftOp k (s.reg rd) n
  (s.setReg rd rc.1).setFlags (flagsShf rc.1 rc.2)

/-- A store of `x[rd]` at `ea` (45_str_push.md R127, R128). -/
def State.storeAt (s : State) (rd : Reg) (ea : Word) : Result := s.settle (s.memWrite ea (s.reg rd))

/-- A load from `ea` into `x[rd]` (46_ldr_pop.md R135, R136). -/
def State.loadFrom (s : State) (rd : Reg) (ea : Word) : Result :=
  s.settle ((s.memRead .load ea).map (fun v => s.setReg rd v))

end Sys2Proof.Machine
end

