-- ==== Sys2Proof/Machine/Cycle.lean ====
section
/-! DEFINITION. The phases of a step around execution: fetch, decode, program-counter update (40_instruction_cycle.md). -/

namespace Sys2Proof.Machine

/-- Fetch: `MemRead(x[15], 2)` (40_instruction_cycle.md R81, 20_memory.md R39). -/
def State.fetch (s : State) : Except Cause Word := s.memRead .fetch s.pc

/-- What a decode fault records: the address of the word, and the word (60_exceptions.md R142). -/
def decodeCause (pc w : Word) : DecodeFault → Cause
  | .illegalOpcode => .illegalOpcode pc w
  | .illegalShiftMode => .illegalShiftMode pc w

/-- Decode of the fetched word (40_instruction_cycle.md R82). -/
def State.decodeAt (s : State) (w : Word) : Except Cause Instr :=
  match decode w with
  | .ok i => .ok i
  | .error e => .error (decodeCause s.pc w e)

/-- Fetch and decode: the instruction of the step, or the first fault met (60_exceptions.md R148). -/
def State.fetchInstr (s : State) : Except Cause Instr :=
  match s.fetch with
  | .error c => .error c
  | .ok w => s.decodeAt w

/-- An instruction redirects exactly when it writes `x[15]`: it is one of the register-writing instructions and its `rd`
is 15 (40_instruction_cycle.md R86, decision D4, log 11). -/
def redirects : Instr → Bool
  | .addR rd _ => rd == Reg.pc
  | .addI rd _ => rd == Reg.pc
  | .mulR rd _ => rd == Reg.pc
  | .mulI rd _ => rd == Reg.pc
  | .xorR rd _ => rd == Reg.pc
  | .xorI rd _ => rd == Reg.pc
  | .lsrR rd _ => rd == Reg.pc
  | .lsrI rd _ => rd == Reg.pc
  | .asrR rd _ => rd == Reg.pc
  | .asrI rd _ => rd == Reg.pc
  | .rorR rd _ => rd == Reg.pc
  | .rorI rd _ => rd == Reg.pc
  | .lslR rd _ => rd == Reg.pc
  | .lslI rd _ => rd == Reg.pc
  | .aslR rd _ => rd == Reg.pc
  | .aslI rd _ => rd == Reg.pc
  | .rolR rd _ => rd == Reg.pc
  | .rolI rd _ => rd == Reg.pc
  | .strR _ _ => false
  | .strI _ _ => false
  | .push _ => false
  | .ldrR rd _ => rd == Reg.pc
  | .ldrI rd _ => rd == Reg.pc
  | .pop rd => rd == Reg.pc

/-- The address of the next instruction in sequence, modulo 2^16 (40_instruction_cycle.md R87, decision D22, log 14). -/
def nextPc (a : Word) : Word := a + 2#16

/-- The program-counter update of a step that began in `s` and whose instruction `i` led to `t`: nothing after a fault
(60_exceptions.md R141) or a redirect, else `x[15] <- (a + 2) mod 2^16` (40_instruction_cycle.md R80, R87). -/
def advancePc (i : Instr) (s t : State) : State :=
  match t.status with
  | .fault _ => t
  | .run => if redirects i then t else t.setReg Reg.pc (nextPc s.pc)

/-- The program-counter update of an outcome. -/
def finishStep (i : Instr) (s : State) (r : Result) : Result :=
  match r with
  | .next t => .next (advancePc i s t)
  | .fault f => .fault f
  | .refused q => .refused q

/-- The word `w` at the program counter, all else as it was. -/
def State.placeAtPc (s : State) (w : Word) : State :=
  { s with mem := Memory.writeWord s.mem s.pc.toNat w }

end Sys2Proof.Machine
end

