-- ==== Sys2Proof/Machine/Add.lean ====
section
/-! DEFINITION. The Add family (41_add.md). -/

namespace Sys2Proof.Machine

/-- ADD, register form (41_add.md R90). -/
def execAddR (rd rm : Reg) (s : State) : Result := .next (s.combine addWord rd (.reg rm))

/-- ADD, immediate form: the immediate is zero-extended (41_add.md R91). -/
def execAddI (rd : Reg) (imm7 : BitVec 7) (s : State) : Result := .next (s.combine addWord rd (.imm (zext7 imm7)))

end Sys2Proof.Machine
end

