-- ==== Sys2Proof/Machine/LdrPop.lean ====
section
/-! DEFINITION. The Load and pop family (46_ldr_pop.md). -/

namespace Sys2Proof.Machine

/-- LDR, register form: `x[rd]` from the address in `x[rm]` (46_ldr_pop.md R135). -/
def execLdrR (rd rm : Reg) (s : State) : Result := s.loadFrom rd (s.eaReg rm)

/-- LDR, immediate form: `x[rd]` from the PC-relative address (46_ldr_pop.md R136). -/
def execLdrI (rd : Reg) (imm7 : BitVec 7) (s : State) : Result := s.loadFrom rd (s.eaPcRel imm7)

/-- `x[13] <- (x[13] + 2) mod 2^16`, the second write of POP (46_ldr_pop.md R137). -/
def State.advanceSp (s : State) : State := s.setReg Reg.sp (s.reg Reg.sp + 2#16)

/-- POP: the word at `x[13]` to `x[rd]`, and then `x[13]` advances by 2; the second write reads `x[13]` after the first
(46_ldr_pop.md R137, decision D15, log 18). -/
def execPop (rd : Reg) (s : State) : Result :=
  s.settle ((s.memRead .load s.eaPop).map (fun v => (s.setReg rd v).advanceSp))

end Sys2Proof.Machine
end

