-- ==== Sys2Proof/Machine/Mul.lean ====
section
/-! DEFINITION. The Multiply family (42_mul.md). -/

namespace Sys2Proof.Machine

/-- MUL, register form (42_mul.md R95). -/
def execMulR (rd rm : Reg) (s : State) : Result := .next (s.combine mulWord rd (.reg rm))

/-- MUL, immediate form: the immediate is sign-extended (42_mul.md R96). -/
def execMulI (rd : Reg) (imm7 : BitVec 7) (s : State) : Result := .next (s.combine mulWord rd (.imm (sext7 imm7)))

end Sys2Proof.Machine
end

