-- ==== Sys2Proof/Machine/Shf.lean ====
section
/-! DEFINITION. The Shift and rotate family (44_shf.md). The amount is the whole unsigned value of `x[rm]` or the 4-bit
immediate (R105). -/

namespace Sys2Proof.Machine

/-- LSR, register form: logical shift right (44_shf.md R110). -/
def execLsrR (rd rm : Reg) (s : State) : Result := .next (s.shiftBy .lsr rd (s.reg rm).toNat)

/-- LSR, immediate form: logical shift right (44_shf.md R111). -/
def execLsrI (rd : Reg) (imm4 : BitVec 4) (s : State) : Result := .next (s.shiftBy .lsr rd imm4.toNat)

/-- ASR, register form: arithmetic shift right (44_shf.md R112). -/
def execAsrR (rd rm : Reg) (s : State) : Result := .next (s.shiftBy .asr rd (s.reg rm).toNat)

/-- ASR, immediate form: arithmetic shift right (44_shf.md R113). -/
def execAsrI (rd : Reg) (imm4 : BitVec 4) (s : State) : Result := .next (s.shiftBy .asr rd imm4.toNat)

/-- ROR, register form: rotate right (44_shf.md R114). -/
def execRorR (rd rm : Reg) (s : State) : Result := .next (s.shiftBy .ror rd (s.reg rm).toNat)

/-- ROR, immediate form: rotate right (44_shf.md R115). -/
def execRorI (rd : Reg) (imm4 : BitVec 4) (s : State) : Result := .next (s.shiftBy .ror rd imm4.toNat)

/-- LSL, register form: logical shift left (44_shf.md R116). -/
def execLslR (rd rm : Reg) (s : State) : Result := .next (s.shiftBy .lsl rd (s.reg rm).toNat)

/-- LSL, immediate form: logical shift left (44_shf.md R117). -/
def execLslI (rd : Reg) (imm4 : BitVec 4) (s : State) : Result := .next (s.shiftBy .lsl rd imm4.toNat)

/-- ASL, register form: arithmetic shift left (44_shf.md R118). -/
def execAslR (rd rm : Reg) (s : State) : Result := .next (s.shiftBy .asl rd (s.reg rm).toNat)

/-- ASL, immediate form: arithmetic shift left (44_shf.md R119). -/
def execAslI (rd : Reg) (imm4 : BitVec 4) (s : State) : Result := .next (s.shiftBy .asl rd imm4.toNat)

/-- ROL, register form: rotate left (44_shf.md R120). -/
def execRolR (rd rm : Reg) (s : State) : Result := .next (s.shiftBy .rol rd (s.reg rm).toNat)

/-- ROL, immediate form: rotate left (44_shf.md R121). -/
def execRolI (rd : Reg) (imm4 : BitVec 4) (s : State) : Result := .next (s.shiftBy .rol rd imm4.toNat)

end Sys2Proof.Machine
end

