-- ==== Sys2Proof/Machine/StrPush.lean ====
section
/-! DEFINITION. The Store and push family (45_str_push.md). -/

namespace Sys2Proof.Machine

/-- STR, register form: `x[rd]` to the address in `x[rm]` (45_str_push.md R127). -/
def execStrR (rd rm : Reg) (s : State) : Result := s.storeAt rd (s.eaReg rm)

/-- STR, immediate form: `x[rd]` to the PC-relative address (45_str_push.md R128). -/
def execStrI (rd : Reg) (imm7 : BitVec 7) (s : State) : Result := s.storeAt rd (s.eaPcRel imm7)

/-- PUSH: `x[rd]`, read first, to `x[13] - 2`, which `x[13]` becomes; a faulting store changes no register
(45_str_push.md R129, decision D14, log 17). -/
def execPush (rd : Reg) (s : State) : Result :=
  s.settle ((s.memWrite s.eaPush (s.reg rd)).map (fun t => t.setReg Reg.sp s.eaPush))

end Sys2Proof.Machine
end

