-- ==== Sys2Proof/Machine/Xor.lean ====
section
/-! DEFINITION. The Exclusive-or family (43_xor.md). -/

namespace Sys2Proof.Machine

/-- XOR, register form (43_xor.md R100). -/
def execXorR (rd rm : Reg) (s : State) : Result := .next (s.combineXor rd (.reg rm))

/-- XOR, immediate form: the immediate is sign-extended (43_xor.md R101). -/
def execXorI (rd : Reg) (imm7 : BitVec 7) (s : State) : Result := .next (s.combineXor rd (.imm (sext7 imm7)))

end Sys2Proof.Machine
end

