-- ==== Sys2Proof/Machine/Dispatch.lean ====
section
/-! DEFINITION. `Execute(I)` (40_instruction_cycle.md R84): one arm per instruction. -/

namespace Sys2Proof.Machine

def exec (i : Instr) (s : State) : Host.Outcome State Fault Refusal :=
  match i with
  | .addR rd rm => Sys2Proof.Machine.execAddR rd rm s
  | .addI rd imm7 => Sys2Proof.Machine.execAddI rd imm7 s
  | .mulR rd rm => Sys2Proof.Machine.execMulR rd rm s
  | .mulI rd imm7 => Sys2Proof.Machine.execMulI rd imm7 s
  | .xorR rd rm => Sys2Proof.Machine.execXorR rd rm s
  | .xorI rd imm7 => Sys2Proof.Machine.execXorI rd imm7 s
  | .lsrR rd rm => Sys2Proof.Machine.execLsrR rd rm s
  | .lsrI rd imm4 => Sys2Proof.Machine.execLsrI rd imm4 s
  | .asrR rd rm => Sys2Proof.Machine.execAsrR rd rm s
  | .asrI rd imm4 => Sys2Proof.Machine.execAsrI rd imm4 s
  | .rorR rd rm => Sys2Proof.Machine.execRorR rd rm s
  | .rorI rd imm4 => Sys2Proof.Machine.execRorI rd imm4 s
  | .lslR rd rm => Sys2Proof.Machine.execLslR rd rm s
  | .lslI rd imm4 => Sys2Proof.Machine.execLslI rd imm4 s
  | .aslR rd rm => Sys2Proof.Machine.execAslR rd rm s
  | .aslI rd imm4 => Sys2Proof.Machine.execAslI rd imm4 s
  | .rolR rd rm => Sys2Proof.Machine.execRolR rd rm s
  | .rolI rd imm4 => Sys2Proof.Machine.execRolI rd imm4 s
  | .strR rd rm => Sys2Proof.Machine.execStrR rd rm s
  | .strI rd imm7 => Sys2Proof.Machine.execStrI rd imm7 s
  | .push rd => Sys2Proof.Machine.execPush rd s
  | .ldrR rd rm => Sys2Proof.Machine.execLdrR rd rm s
  | .ldrI rd imm7 => Sys2Proof.Machine.execLdrI rd imm7 s
  | .pop rd => Sys2Proof.Machine.execPop rd s

end Sys2Proof.Machine
end

