-- ==== Sys2Proof/Machine/Step.lean ====
section
/-! DEFINITION. One step of the machine (40_instruction_cycle.md R80). -/

namespace Sys2Proof.Machine

/-- `Step()` (40_instruction_cycle.md R80): nothing in FAULT; else fetch, decode, execute, update the program counter; a
fault of any phase is taken in the state of the start of the step (60_exceptions.md R141). -/
def step (s : State) : Host.Outcome State Fault Refusal :=
  match s.status with
  | .fault _ => .next s
  | .run =>
    match s.fetchInstr with
    | .error c => .next (s.raiseFault c)
    | .ok i => finishStep i s (exec i s)

/-- `s` with an instruction word where `step` fetches: the word at `x[15]`, all else as it was. Where `s` is in `RUN`
and `x[15]` is even and below `RAM_SIZE`, as after reset, the next step runs it (log 22). -/
def State.withFetchWord (s : State) (nbits w : Nat) : State :=
  s.placeAtPc (BitVec.ofNat 16 (w % 2 ^ nbits))

end Sys2Proof.Machine
end

