-- ==== Sys2Proof/WellFormed.lean ====
section
/-! DEFINITION. The checks an instruction of the text form passes before it is an `Instr` (30_encoding.md R72, R73,
R75). An `Instr` is well formed by its type; what can be ill formed is the raw form. -/

namespace Sys2Proof

/-- A register number is below 16 (30_encoding.md R72). -/
def regField? (n : Nat) : Option Reg :=
  if h : n < 16 then some ⟨n, h⟩ else none

/-- A 7-bit field holds 0 to 127 (30_encoding.md R73). -/
def imm7Field? (n : Nat) : Option (BitVec 7) :=
  if n < 128 then some (BitVec.ofNat 7 n) else none

/-- A shift immediate holds 0 to 15 (30_encoding.md R73). -/
def imm4Field? (n : Nat) : Option (BitVec 4) :=
  if n < 16 then some (BitVec.ofNat 4 n) else none

/-- The second operand of ADD, MUL, XOR, STR and LDR: a register or a 7-bit immediate (30_encoding.md R75). -/
def regOrImm7? (r : Reg → Instr) (i : BitVec 7 → Instr) : RawOperand → Option Instr
  | .none => none
  | .reg n => (regField? n).map r
  | .imm n => (imm7Field? n).map i

/-- The second operand of a shift: a register or a 4-bit immediate (30_encoding.md R75). -/
def regOrImm4? (r : Reg → Instr) (i : BitVec 4 → Instr) : RawOperand → Option Instr
  | .none => none
  | .reg n => (regField? n).map r
  | .imm n => (imm4Field? n).map i

/-- PUSH and POP have no second operand (30_encoding.md R75). -/
def noOperand? (i : Instr) : RawOperand → Option Instr
  | .none => some i
  | .reg _ => none
  | .imm _ => none

/-- The instruction of a raw form, or none where a number is out of its range or the operand is not of a kind the
mnemonic takes (30_encoding.md R72, R73, R75). -/
def RawInstr.check (r : RawInstr) : Option Instr :=
  match regField? r.rd with
  | none => none
  | some rd =>
    match r.mnemonic with
    | .add => regOrImm7? (.addR rd) (.addI rd) r.op2
    | .mul => regOrImm7? (.mulR rd) (.mulI rd) r.op2
    | .xor => regOrImm7? (.xorR rd) (.xorI rd) r.op2
    | .lsr => regOrImm4? (.lsrR rd) (.lsrI rd) r.op2
    | .asr => regOrImm4? (.asrR rd) (.asrI rd) r.op2
    | .ror => regOrImm4? (.rorR rd) (.rorI rd) r.op2
    | .lsl => regOrImm4? (.lslR rd) (.lslI rd) r.op2
    | .asl => regOrImm4? (.aslR rd) (.aslI rd) r.op2
    | .rol => regOrImm4? (.rolR rd) (.rolI rd) r.op2
    | .str => regOrImm7? (.strR rd) (.strI rd) r.op2
    | .push => noOperand? (.push rd) r.op2
    | .ldr => regOrImm7? (.ldrR rd) (.ldrI rd) r.op2
    | .pop => noOperand? (.pop rd) r.op2

/-- The raw form of an instruction: its mnemonic and the numbers of its fields (30_encoding.md R75, R77). -/
def Instr.raw : Instr → RawInstr
  | .addR rd rm => ⟨.add, rd.val, .reg rm.val⟩
  | .addI rd v => ⟨.add, rd.val, .imm v.toNat⟩
  | .mulR rd rm => ⟨.mul, rd.val, .reg rm.val⟩
  | .mulI rd v => ⟨.mul, rd.val, .imm v.toNat⟩
  | .xorR rd rm => ⟨.xor, rd.val, .reg rm.val⟩
  | .xorI rd v => ⟨.xor, rd.val, .imm v.toNat⟩
  | .lsrR rd rm => ⟨.lsr, rd.val, .reg rm.val⟩
  | .lsrI rd v => ⟨.lsr, rd.val, .imm v.toNat⟩
  | .asrR rd rm => ⟨.asr, rd.val, .reg rm.val⟩
  | .asrI rd v => ⟨.asr, rd.val, .imm v.toNat⟩
  | .rorR rd rm => ⟨.ror, rd.val, .reg rm.val⟩
  | .rorI rd v => ⟨.ror, rd.val, .imm v.toNat⟩
  | .lslR rd rm => ⟨.lsl, rd.val, .reg rm.val⟩
  | .lslI rd v => ⟨.lsl, rd.val, .imm v.toNat⟩
  | .aslR rd rm => ⟨.asl, rd.val, .reg rm.val⟩
  | .aslI rd v => ⟨.asl, rd.val, .imm v.toNat⟩
  | .rolR rd rm => ⟨.rol, rd.val, .reg rm.val⟩
  | .rolI rd v => ⟨.rol, rd.val, .imm v.toNat⟩
  | .strR rd rm => ⟨.str, rd.val, .reg rm.val⟩
  | .strI rd v => ⟨.str, rd.val, .imm v.toNat⟩
  | .push rd => ⟨.push, rd.val, .none⟩
  | .ldrR rd rm => ⟨.ldr, rd.val, .reg rm.val⟩
  | .ldrI rd v => ⟨.ldr, rd.val, .imm v.toNat⟩
  | .pop rd => ⟨.pop, rd.val, .none⟩

end Sys2Proof
end

