-- ==== Sys2Proof/Machine/Assembly.lean ====
section
/-! DEFINITION. The text form of programs (30_encoding.md R70 to R78): tokens, the reader of a program, the disassembly. It is
software outside the block (00_scope.md R3); no step of the machine uses it. Text is a list of ASCII characters. -/

namespace Sys2Proof.Machine

/-- A piece of text; a token is one that is not empty. -/
abbrev Token := List Char

/-- Why a line is no instruction (30_encoding.md R72 to R76, R78): the error kinds a rule or an example of the spec ties
to a condition of a line (log 25). -/
inductive AsmError where
  /-- No token on the line. -/
  | emptyStr
  /-- The first token is none of the 13 mnemonics. -/
  | badInstruction
  /-- Fewer tokens than 30_encoding.md R75 gives the mnemonic. -/
  | missingOps
  /-- More tokens than 30_encoding.md R75 gives the mnemonic. -/
  | extraOps
  /-- The token between the operands is not the comma. -/
  | expectedSep
  /-- An operand is not of a kind the mnemonic takes, or out of its range. -/
  | invalidOp
  /-- A label that the program does not declare. -/
  | unresolvedSymbol
deriving DecidableEq, Repr

/-! ## Tokens (30_encoding.md R70, R71) -/

/-- What a character is to the tokenizer. -/
inductive CharClass where
  | space
  | word
  | mark
deriving DecidableEq, Repr

/-- A word character: letter, digit or underscore (30_encoding.md R74); ASCII letters and digits (DESIGN CHOICE, log 26). -/
def isWordChar (c : Char) : Bool := c.isAlphanum || c == '_'

/-- The class of a character. 30_encoding.md R71 splits at white space and names no set: DESIGN CHOICE, log 26, safe: white
space is space, tab, carriage return and line feed; any other character that is no word character, form feed and vertical tab
included, is a mark. -/
def classOf (c : Char) : CharClass :=
  if c.isWhitespace then .space else if isWordChar c then .word else .mark

/-- The token gathered so far, in reverse, if it is not empty (30_encoding.md R71: empty tokens are discarded). -/
def flushToken (cur : List Char) : List Token := if cur.isEmpty then [] else [cur.reverse]

/-- Tokens end at white space and at a transition between word and other characters (30_encoding.md R71). -/
def tokensFrom : CharClass → List Char → List Char → List Token
  | _, cur, [] => flushToken cur
  | k, cur, c :: cs =>
    if classOf c = .space then flushToken cur ++ tokensFrom .space [] cs
    else if classOf c = k then tokensFrom k (c :: cur) cs
    else flushToken cur ++ tokensFrom (classOf c) [c] cs

/-- The tokens of a line: lower case, comment dropped (30_encoding.md R70, R71). -/
def tokenize (line : List Char) : List Token :=
  tokensFrom .space [] ((line.map Char.toLower).takeWhile (fun c => c != ';'))

/-! ## Numbers, registers, immediates (30_encoding.md R72, R73) -/

/-- The value of a digit of a base of at most 16, lower case. -/
def digitOf (base : Nat) (c : Char) : Option Nat :=
  let d := if c.isDigit then c.toNat - 48 else if 'a' ≤ c ∧ c ≤ 'f' then c.toNat - 87 else 16
  if d < base then some d else none

/-- The number whose further digits are given. -/
def numberFrom (base : Nat) : List Char → Nat → Option Nat
  | [], n => some n
  | c :: cs, n =>
    match digitOf base c with
    | none => none
    | some d => numberFrom base cs (n * base + d)

/-- The number of one or more digits. -/
def numberOf (base : Nat) (ds : List Char) : Option Nat :=
  if ds.isEmpty then none else numberFrom base ds 0

/-- The number of a register token, not checked against 16 (30_encoding.md R72). -/
def regToken? : Token → Option Nat
  | ['s', 'r'] => some 13
  | ['l', 'r'] => some 14
  | ['p', 'c'] => some 15
  | 'r' :: ds => numberOf 10 ds
  | _ => none

/-- The value of an immediate token: a base prefix and digits (30_encoding.md R73). -/
def immToken? : Token → Option Nat
  | '0' :: 'b' :: ds => numberOf 2 ds
  | '0' :: 'd' :: ds => numberOf 10 ds
  | '0' :: 'o' :: ds => numberOf 8 ds
  | '0' :: 'x' :: ds => numberOf 16 ds
  | _ => none

/-- A register or immediate operand, its number not checked; it is tried before a label of the same spelling (DESIGN CHOICE,
log 26). -/
def operandToken? (t : Token) : Option RawOperand :=
  match regToken? t with
  | some n => some (.reg n)
  | none => (immToken? t).map .imm

/-! ## Mnemonics (30_encoding.md R75, decision D20, log 27) -/

/-- The spelling of a mnemonic. -/
def mnemonicText : Mnemonic → Token
  | .add => ['a', 'd', 'd']
  | .mul => ['m', 'u', 'l']
  | .xor => ['x', 'o', 'r']
  | .lsr => ['l', 's', 'r']
  | .asr => ['a', 's', 'r']
  | .ror => ['r', 'o', 'r']
  | .lsl => ['l', 's', 'l']
  | .asl => ['a', 's', 'l']
  | .rol => ['r', 'o', 'l']
  | .str => ['s', 't', 'r']
  | .push => ['p', 'u', 's', 'h']
  | .ldr => ['l', 'd', 'r']
  | .pop => ['p', 'o', 'p']

/-- The 13 mnemonics. -/
def allMnemonics : List Mnemonic := [.add, .mul, .xor, .lsr, .asr, .ror, .lsl, .asl, .rol, .str, .push, .ldr, .pop]

/-- The mnemonic a token spells. -/
def mnemonicOf (t : Token) : Option Mnemonic := allMnemonics.find? (fun m => mnemonicText m == t)

/-- The addressing operator before the second operand: `&` of a store, `*` of a load (30_encoding.md R75). -/
def operatorText : Mnemonic → List Token
  | .str => [['&']]
  | .ldr => [['*']]
  | .add | .mul | .xor | .lsr | .asr | .ror | .lsl | .asl | .rol | .push | .pop => []

/-- The tokens after the mnemonic: the first operand; but for PUSH and POP the comma, the operator if there is one, and the
second operand (30_encoding.md R75). -/
def operandCount (m : Mnemonic) : Nat :=
  match m with
  | .push | .pop => 1
  | .str | .ldr => 4
  | .add | .mul | .xor | .lsr | .asr | .ror | .lsl | .asl | .rol => 3

/-! ## Labels (30_encoding.md R74, R76) -/

/-- The labels of a program, each with the index of the next instruction line. -/
abbrev Symbols := List (Token × Nat)

/-- The index a label is bound to; of two declarations the first counts (DESIGN CHOICE, log 26). -/
def labelIndex? (symbols : Symbols) (t : Token) : Option Nat := symbols.lookup t

/-- The immediate field of a label operand at line index `k` for a label bound to `l`: `(l - (k + 1)) mod 128`, where the
offset lies in -64 to 63 (30_encoding.md R76). -/
def labelField? (k l : Nat) : Option Nat :=
  let d : Int := (l : Int) - ((k : Int) + 1)
  if -64 ≤ d ∧ d ≤ 63 then some (d % 128).toNat else none

/-- The second operand of STR or LDR at line index `k`: a register, an immediate, or a label (30_encoding.md R75, R76). -/
def addressOperand (symbols : Symbols) (k : Nat) (t : Token) : Except AsmError RawOperand :=
  match operandToken? t with
  | some o => .ok o
  | none =>
    if t.all isWordChar then
      match labelIndex? symbols t with
      | none => .error .unresolvedSymbol
      | some l =>
        match labelField? k l with
        | none => .error .invalidOp
        | some v => .ok (.imm v)
    else .error .invalidOp

/-! ## Instruction lines (30_encoding.md R75) -/

/-- The second operand of an instruction; a label only for STR and LDR (91_not_in_source.md N13). -/
def secondOperand (symbols : Symbols) (k : Nat) (m : Mnemonic) (t : Token) : Except AsmError RawOperand :=
  match m with
  | .str | .ldr => addressOperand symbols k t
  | .add | .mul | .xor | .lsr | .asr | .ror | .lsl | .asl | .rol | .push | .pop =>
    match operandToken? t with
    | some o => .ok o
    | none => .error .invalidOp

/-- The raw form of the operand tokens, their count checked before. -/
def rawOperands (symbols : Symbols) (k : Nat) (m : Mnemonic) (d : Nat) : List Token → Except AsmError RawInstr
  | [] => .ok ⟨m, d, .none⟩
  | [_] => .error .missingOps
  | sep :: rest =>
    if sep = [','] then
      match rest.dropLast, rest.getLast? with
      | operator, some o =>
        if operator = operatorText m then (secondOperand symbols k m o).map (fun v => ⟨m, d, v⟩)
        else .error .invalidOp
      | _, none => .error .missingOps
    else .error .expectedSep

/-- The instruction of the tokens after a mnemonic. -/
def readOperands (symbols : Symbols) (k : Nat) (m : Mnemonic) (ts : List Token) : Except AsmError Instr :=
  if ts.length < operandCount m then .error .missingOps
  else if operandCount m < ts.length then .error .extraOps
  else
    match ts with
    | [] => .error .missingOps
    | d :: rest =>
      match regToken? d with
      | none => .error .invalidOp
      | some d =>
        match rawOperands symbols k m d rest with
        | .error e => .error e
        | .ok r =>
          match r.check with
          | none => .error .invalidOp
          | some i => .ok i

/-- The instruction of an instruction line at line index `k` (30_encoding.md R75). -/
def readInstr (symbols : Symbols) (k : Nat) : List Token → Except AsmError Instr
  | [] => .error .emptyStr
  | t :: ts =>
    match mnemonicOf t with
    | none => .error .badInstruction
    | some m => readOperands symbols k m ts

/-! ## Programs (30_encoding.md R70, R74, R78) -/

/-- The lines of a text; a line ends at a line feed (DESIGN CHOICE, log 26). -/
def linesFrom : List Char → List Char → List (List Char)
  | cur, [] => [cur.reverse]
  | cur, c :: cs => if c = '\n' then cur.reverse :: linesFrom [] cs else linesFrom (c :: cur) cs

/-- A label declaration: exactly two tokens, a word and the colon (30_encoding.md R74). -/
def labelOf? : List Token → Option Token
  | [t, [':']] => if t.all isWordChar then some t else none
  | _ => none

/-- The lines that hold a token, as tokens (30_encoding.md R70). -/
def programLines (src : List Char) : List (List Token) :=
  ((linesFrom [] src).map tokenize).filter (fun ts => !ts.isEmpty)

/-- The labels of the lines, the next instruction line having index `k` (30_encoding.md R74). -/
def collectLabels : Nat → List (List Token) → Symbols
  | _, [] => []
  | k, ts :: rest =>
    match labelOf? ts with
    | some t => (t, k) :: collectLabels k rest
    | none => collectLabels (k + 1) rest

/-- One word, or the error, for each instruction line, the next one having index `k` (30_encoding.md R70, R74, R78). -/
def assembleLines (symbols : Symbols) : Nat → List (List Token) → List (Except AsmError Word)
  | _, [] => []
  | k, ts :: rest =>
    match labelOf? ts with
    | some _ => assembleLines symbols k rest
    | none => (readInstr symbols k ts).map encode :: assembleLines symbols (k + 1) rest

/-- The program of a text: labels first, then one word or error for each instruction line, in order. -/
def assemble (src : List Char) : List (Except AsmError Word) :=
  assembleLines (collectLabels 0 (programLines src)) 0 (programLines src)

/-! ## Disassembly (30_encoding.md R77, decision D20, log 27) -/

/-- A digit below 16, lower case. -/
def digitChar (n : Nat) : Char := if n < 10 then Char.ofNat (48 + n) else Char.ofNat (87 + n)

/-- `0x` and four digits. -/
def hexText (n : Nat) : Token :=
  ['0', 'x', digitChar (n / 4096 % 16), digitChar (n / 256 % 16), digitChar (n / 16 % 16), digitChar (n % 16)]

/-- `r` and a register number of one or two decimal digits. -/
def regText (n : Nat) : Token :=
  if n < 10 then ['r', digitChar n] else ['r', digitChar (n / 10), digitChar (n % 10)]

/-- The text of the second operand, the separator before it. -/
def operandText (m : Mnemonic) : RawOperand → Token
  | .none => []
  | .reg n => ',' :: ' ' :: (operatorText m).flatten ++ regText n
  | .imm n => ',' :: ' ' :: (operatorText m).flatten ++ hexText n

/-- The text of an instruction: `<mnemonic> r<N>, <op2>`, the immediate as its raw field (30_encoding.md R77). -/
def disassemble (i : Instr) : List Char :=
  mnemonicText i.raw.mnemonic ++ ' ' :: regText i.raw.rd ++ operandText i.raw.mnemonic i.raw.op2

end Sys2Proof.Machine
end

