-- ==== Sys2Proof/Machine/Interface.lean ====
section
/-! DEFINITION. The boundary of the block (10_state.md R27): `Reset(INIT_MEM)`, the status view, the debug view. `Step()` is
`step` of Step.lean; the memory port is `State.memRead` and `State.memWrite` of Ops.lean. -/

namespace Sys2Proof.Machine

/-! ## Reset -/

/-- A cell before a memory whose addresses are all higher, left out where an unlisted address reads the same. -/
def Memory.prepend (a : Nat) (b : Byte) (m : Memory) : Memory :=
  if b = Config.blankByte then m else (a, b) :: m

/-- The words `f 0, f 2, …` below word index `n` put before `m`, the highest first. -/
def Memory.ofWordsBefore (f : Nat → Word) : Nat → Memory → Memory
  | 0, m => m
  | n + 1, m =>
    Memory.ofWordsBefore f n
      (Memory.prepend (2 * n) (loByte (f (2 * n))) (Memory.prepend (2 * n + 1) (hiByte (f (2 * n))) m))

/-- The RAM of `size` bytes whose word at each even address `a` is `f a`, in canonical form. -/
def Memory.ofWords (f : Nat → Word) (size : Nat) : Memory := Memory.ofWordsBefore f (size / 2) []

/-- `Reset(INIT_MEM)` from any state, FAULT included (70_reset_and_hazards.md R165, R166, 10_state.md R23): registers and
flags 0, RAM reloaded from `INIT_MEM`, status `RUN`. `RAM_SIZE` is never changed (10_state.md R20). -/
def State.resetTo (s : State) (initMem : Nat → Word) : State :=
  { State.reset with mem := Memory.ofWords initMem s.ramSize, ramSize := s.ramSize }

/-- The `INIT_MEM` of a program: its word `i` at byte address `2 * i` (20_memory.md R40, 70_reset_and_hazards.md R171). The
words the program does not set are the caller's `rest`: decision D16 leaves them open and the model chooses none (log 5). -/
def imageOf (words : List Word) (rest : Nat → Word) (a : Nat) : Word := words.getD (a / 2) (rest a)

/-! ## Status view -/

/-- The cause code of the run status (60_exceptions.md R142, decision D12, log 2). -/
def State.statusCode (s : State) : Nat :=
  match s.status with
  | .run => 0
  | .fault (.illegalOpcode _ _) => 1
  | .fault (.illegalShiftMode _ _) => 2
  | .fault (.misalignedAccess _ _ _) => 3
  | .fault (.outOfBoundsAccess _ _ _) => 4

/-- The cause and info of the run status, none in `RUN` (60_exceptions.md R142). -/
def State.faultInfo (s : State) : Option Cause :=
  match s.status with
  | .run => none
  | .fault c => some c

/-! ## Debug view -/

/-- `x[r]`, read from outside. -/
def State.debugReg (s : State) (r : Reg) : Word := s.reg r

/-- `SR` as 4 bits (10_state.md R16). -/
def State.debugSr (s : State) : BitVec 4 := s.flags.sr

/-- `SR` shown as a word (10_state.md R16). -/
def State.debugSrWord (s : State) : Word := s.flags.srWord

/-- `M[a]` for an even `a` below `RAM_SIZE`, none elsewhere (10_state.md R20). -/
def State.debugMem (s : State) (a : Nat) : Option Word :=
  if a % 2 = 0 ∧ a < s.ramSize then some (Memory.readWord s.mem a) else none

end Sys2Proof.Machine
end

