-- ==== Sys2Proof/Safety.lean ====
section
/-! DEFINITION. What claims about the machine are stated in: frames, the accesses and destinations of an instruction, the
invariant of the state, runs without a fault. -/

namespace Sys2Proof.Machine

/-! ## Frames -/

/-- Every byte of memory reads as before. -/
abbrev SameMem (s t : State) : Prop := ∀ a : Nat, Memory.read t.mem a = Memory.read s.mem a

/-- Every byte of memory but the two of the word at `ea` reads as before. -/
abbrev SameMemBut (ea : Word) (s t : State) : Prop :=
  ∀ a : Nat, a ≠ ea.toNat → a ≠ ea.toNat + 1 → Memory.read t.mem a = Memory.read s.mem a

/-- Every register but those listed is unchanged. -/
abbrev SameRegsBut (rs : List Reg) (s t : State) : Prop := ∀ r : Reg, r ∉ rs → t.reg r = s.reg r

/-- Run status and `RAM_SIZE` are unchanged. -/
abbrev SameStatus (s t : State) : Prop := t.status = s.status ∧ t.ramSize = s.ramSize

/-- All that an instruction with destination registers `rs` and no flag and no store keeps. -/
abbrev FrameRegs (rs : List Reg) (s t : State) : Prop :=
  SameRegsBut rs s t ∧ t.flags = s.flags ∧ SameMem s t ∧ SameStatus s t

/-- All that an instruction with destination registers `rs`, all four flags and no store keeps. -/
abbrev FrameRegsFlags (rs : List Reg) (s t : State) : Prop := SameRegsBut rs s t ∧ SameMem s t ∧ SameStatus s t

/-- All that an instruction with destination registers `rs` that stores the word at `ea` keeps. -/
abbrev FrameStore (rs : List Reg) (ea : Word) (s t : State) : Prop :=
  SameRegsBut rs s t ∧ t.flags = s.flags ∧ SameMemBut ea s t ∧ SameStatus s t

/-! ## Addresses -/

/-- An address a 16-bit access may use: even and below `RAM_SIZE` (20_memory.md R34, R35). -/
abbrev State.accessible (s : State) (a : Word) : Prop := a.toNat % 2 = 0 ∧ a.toNat < s.ramSize

/-- The machine after a fatal condition: the status alone differs (60_exceptions.md R141). -/
abbrev State.faulted (s : State) (c : Cause) : State := { s with status := .fault c }

/-- What a data access of kind `k` at `ea` answers where the address is not accessible: MisalignedAccess for every odd
address, OutOfBoundsAccess for an even one at or above `RAM_SIZE` (20_memory.md R34, R35, R36). -/
abbrev FaultsWhereInaccessible (i : Instr) (k : AccessKind) (ea : Word) (s : State) : Prop :=
  (ea.toNat % 2 = 1 → exec i s = .next (s.faulted (.misalignedAccess s.pc ea k))) ∧
  (ea.toNat % 2 = 0 → s.ramSize ≤ ea.toNat → exec i s = .next (s.faulted (.outOfBoundsAccess s.pc ea k)))

/-! ## What an instruction touches -/

/-- The instruction `i` shifts `x[rd]` by `n` places and completes: result and carryout by 44_shf.md R106, all four flags by
44_shf.md R107, nothing else changed. -/
abbrev ShiftsBy (i : Instr) (k : ShiftKind) (rd : Reg) (n : Nat) (s : State) : Prop :=
  ∃ t, exec i s = .next t ∧ t.reg rd = (shiftOp k (s.reg rd) n).1 ∧
    t.flags.z = decide (t.reg rd = 0#16) ∧ t.flags.n = (t.reg rd).getLsbD 15 ∧
    t.flags.c = (shiftOp k (s.reg rd) n).2 ∧ t.flags.v = (t.flags.c ^^ t.flags.n) ∧
    FrameRegsFlags [rd] s t

/-- The one data access of an instruction in a state: LDR and POP one read, STR and PUSH one write, all others none
(20_memory.md R38, 45_str_push.md R125). -/
def dataAccess (s : State) : Instr → Option (AccessKind × Word)
  | .strR _ rm => some (.store, s.eaReg rm)
  | .strI _ imm7 => some (.store, s.eaPcRel imm7)
  | .push _ => some (.store, s.eaPush)
  | .ldrR _ rm => some (.load, s.eaReg rm)
  | .ldrI _ imm7 => some (.load, s.eaPcRel imm7)
  | .pop _ => some (.load, s.eaPop)
  | .addR _ _ | .addI _ _ | .mulR _ _ | .mulI _ _ | .xorR _ _ | .xorI _ _ => none
  | .lsrR _ _ | .lsrI _ _ | .asrR _ _ | .asrI _ _ | .rorR _ _ | .rorI _ _ => none
  | .lslR _ _ | .lslI _ _ | .aslR _ _ | .aslI _ _ | .rolR _ _ | .rolI _ _ => none

/-- The registers an instruction writes, the program-counter update of the step left out (10_state.md R12). -/
def destinations : Instr → List Reg
  | .addR rd _ | .addI rd _ | .mulR rd _ | .mulI rd _ | .xorR rd _ | .xorI rd _ => [rd]
  | .lsrR rd _ | .lsrI rd _ | .asrR rd _ | .asrI rd _ | .rorR rd _ | .rorI rd _ => [rd]
  | .lslR rd _ | .lslI rd _ | .aslR rd _ | .aslI rd _ | .rolR rd _ | .rolI rd _ => [rd]
  | .strR _ _ | .strI _ _ => []
  | .push _ => [Reg.sp]
  | .ldrR rd _ | .ldrI rd _ => [rd]
  | .pop rd => [rd, Reg.sp]

/-- The instructions that write the flags: XOR and the twelve shifts (10_state.md R17). -/
def writesFlags : Instr → Bool
  | .xorR _ _ | .xorI _ _ => true
  | .lsrR _ _ | .lsrI _ _ | .asrR _ _ | .asrI _ _ | .rorR _ _ | .rorI _ _ => true
  | .lslR _ _ | .lslI _ _ | .aslR _ _ | .aslI _ _ | .rolR _ _ | .rolI _ _ => true
  | .addR _ _ | .addI _ _ | .mulR _ _ | .mulI _ _ => false
  | .strR _ _ | .strI _ _ | .push _ | .ldrR _ _ | .ldrI _ _ | .pop _ => false

/-! ## The invariant -/

/-- The address of the instruction a cause records (60_exceptions.md R142). -/
def Cause.pc : Cause → Word
  | .illegalOpcode pc _ => pc
  | .illegalShiftMode pc _ => pc
  | .misalignedAccess pc _ _ => pc
  | .outOfBoundsAccess pc _ _ => pc

/-- What a recorded cause says is true of the frozen machine (60_exceptions.md R142 to R147): `pc` is `x[15]`, the word is the
one there and does not decode, the address is odd, or even and at or above `RAM_SIZE`; that of a fetch is `pc`. -/
def Cause.trueOf (s : State) : Cause → Prop
  | .illegalOpcode p w =>
    p = s.pc ∧ s.accessible p ∧ w = Memory.readWord s.mem p.toNat ∧ decode w = .error .illegalOpcode
  | .illegalShiftMode p w =>
    p = s.pc ∧ s.accessible p ∧ w = Memory.readWord s.mem p.toNat ∧ decode w = .error .illegalShiftMode
  | .misalignedAccess p a k => p = s.pc ∧ a.toNat % 2 = 1 ∧ (k = .fetch → a = p)
  | .outOfBoundsAccess p a k => p = s.pc ∧ a.toNat % 2 = 0 ∧ s.ramSize ≤ a.toNat ∧ (k = .fetch → a = p)

/-- A machine in FAULT records a true cause. -/
abbrev State.faultTrue (s : State) : Prop := ∀ c, s.status = .fault c → c.trueOf s

/-- The invariant of the state: `RAM_SIZE` is one 00_scope.md R5 allows, memory is in canonical form and lists no address
outside the RAM (10_state.md R20), a recorded fault is true. -/
abbrev State.Inv (s : State) : Prop :=
  Config.legalRamSize s.ramSize ∧ Memory.wf s.mem ∧ (∀ c ∈ s.mem, c.1 < s.ramSize) ∧ s.faultTrue

/-! ## Safe runs -/

/-- A run of `n` steps that meets no fatal condition: after each of its steps the status is `RUN`. -/
def SafeRun (n : Nat) (s : State) : Prop :=
  ∀ k, k ≤ n → ∃ t, Host.Core.run Sys2Proof.core k s = .next t ∧ t.status = .run

end Sys2Proof.Machine
end

