-- ==== Sys2Proof/Certificates/Slice0/Obligations.lean ====
section
/-! DEFINITION. The statements for the provers. `log <n>` in a docstring is notes/assumptions/<n>.md; `D<n>` is the spec's own
decision in 92_eei_decisions.md on which a statement, or a clause of it, rests. A statement about `exec` is about `Execute(I)`
alone and holds in every state, those included where no step reaches it (status FAULT, an odd `x[15]`: log 23). -/

open Sys2Proof Sys2Proof.Machine

/-! ## Encoding -/

/-- 30_encoding.md R60: the opcode nibble chooses the family; ten nibbles are a decode error. -/
def Obligations.OpcodeNibbleChoosesFamily : Prop :=
  ∀ w : Word,
    (w.toNat / 4096 ∈ [0, 1, 2, 3, 4, 6, 8, 9, 10, 15] → decode w = .error .illegalOpcode) ∧
    (w.toNat / 4096 = 5 → ∃ i, decode w = .ok i ∧ (rowOf i).mnemonic ∈ ["XOR_R", "XOR_I"]) ∧
    (w.toNat / 4096 = 7 → ∃ i, decode w = .ok i ∧ (rowOf i).mnemonic ∈ ["MUL_R", "MUL_I"]) ∧
    (w.toNat / 4096 = 11 → ∃ i, decode w = .ok i ∧ (rowOf i).mnemonic ∈ ["LDR_R", "LDR_I", "POP"]) ∧
    (w.toNat / 4096 = 12 → ∃ i, decode w = .ok i ∧ (rowOf i).mnemonic ∈ ["ADD_R", "ADD_I"]) ∧
    (w.toNat / 4096 = 13 → ∃ i, decode w = .ok i ∧ (rowOf i).mnemonic ∈ ["STR_R", "STR_I", "PUSH"]) ∧
    (w.toNat / 4096 = 14 → decode w = .error .illegalShiftMode ∨
      ∃ i, decode w = .ok i ∧ (rowOf i).mnemonic ∈
        ["LSR_R", "LSR_I", "ASR_R", "ASR_I", "ROR_R", "ROR_I", "LSL_R", "LSL_I", "ASL_R", "ASL_I", "ROL_R", "ROL_I"])

/-- 60_exceptions.md R143: the decoder answers IllegalOpcode for exactly the words of the ten unassigned nibbles. -/
def Obligations.IllegalOpcodeIffUnassignedNibble : Prop :=
  ∀ w : Word, decode w = .error .illegalOpcode ↔ w.toNat / 4096 ∈ [0, 1, 2, 3, 4, 6, 8, 9, 10, 15]

/-- 60_exceptions.md R147 (the words of 44_shf.md R122): the decoder answers IllegalShiftMode for exactly the words that match 0xE030 or
0xE070 under mask 0xF070. -/
def Obligations.IllegalShiftModeIffInvalidMode : Prop :=
  ∀ w : Word, decode w = .error .illegalShiftMode ↔ (w &&& 0xF070#16 = 0xE030#16 ∨ w &&& 0xF070#16 = 0xE070#16)

/-- Decode and encode agree for every instruction, every operand at every value its field admits (30_encoding.md R61, R63;
the place of `rd` is D2, the mode numbers D5: logs 9 and 12). -/
def Obligations.DecodeOfEncodeIsIdentity : Prop := ∀ i : Instr, decode (encode i) = .ok i

/-- The round-trip law of 30_encoding.md R63: a word that decodes encodes back to its canonical word, whose masks are those
of R63 (canonical zeros are D19, log 19). -/
def Obligations.EncodeOfDecodeIsCanonical : Prop :=
  ∀ (w : Word) (i : Instr), decode w = .ok i → encode i = canonicalize w

/-- 30_encoding.md R59 (D19, log 19): bits 6:4 of format AR, bits 5:4 of format MR and bits 5:0 of format MP are ignored. -/
def Obligations.DontCareBitsAreIgnored : Prop :=
  (∀ op rd rm : BitVec 4, op ∈ [0b1100#4, 0b0111#4, 0b0101#4] → ∀ x y : BitVec 3,
    decode (op ++ rd ++ 0b0#1 ++ x ++ rm : BitVec 16) = decode (op ++ rd ++ 0b0#1 ++ y ++ rm : BitVec 16)) ∧
  (∀ op rd rm : BitVec 4, op ∈ [0b1101#4, 0b1011#4] → ∀ x y : BitVec 2,
    decode (op ++ rd ++ 0b00#2 ++ x ++ rm : BitVec 16) = decode (op ++ rd ++ 0b00#2 ++ y ++ rm : BitVec 16)) ∧
  (∀ op rd : BitVec 4, op ∈ [0b1101#4, 0b1011#4] → ∀ x y : BitVec 6,
    decode (op ++ rd ++ 0b01#2 ++ x : BitVec 16) = decode (op ++ rd ++ 0b01#2 ++ y : BitVec 16))

/-- spec/opcode_table.json says what the decoder does: the row of a decoded instruction holds its word, and every word of a row
decodes to an instruction of that row (which shift each mode pattern is, is D5, log 12; that a row holds its words whatever their
don't-care bits is D19, log 19). -/
def Obligations.DecoderFollowsOpcodeTable : Prop :=
  ∀ w : Word, (∀ i, decode w = .ok i → rowOf i ∈ opcodeTable ∧ inRow (rowOf i) w) ∧
    (∀ row ∈ opcodeTable, inRow row w → ∃ i, decode w = .ok i ∧ rowOf i = row)

/-- Words written out in 30_encoding.md and in the family files decode to the instructions they stand for there (`rd` in bits
11:8 is D2, log 9; mode 100 for LSL and mode 001 for ASR are D5, log 12). -/
def Obligations.WrittenOutWordsDecode : Prop :=
  decode 0xC102#16 = .ok (.addR 1 2) ∧ decode 0xC081#16 = .ok (.addI 0 1) ∧
  decode 0x7185#16 = .ok (.mulI 1 5) ∧ decode 0x5000#16 = .ok (.xorR 0 0) ∧
  decode 0xE2C3#16 = .ok (.lslI 2 3) ∧ decode 0xE194#16 = .ok (.asrI 1 4) ∧
  decode 0xD102#16 = .ok (.strR 1 2) ∧ decode 0xD340#16 = .ok (.push 3) ∧
  decode 0xB485#16 = .ok (.ldrI 4 5) ∧ decode 0xB340#16 = .ok (.pop 3)

/-- 00_scope.md R6, 30_encoding.md R57: `zext_7` keeps the value of the field, `sext_7` adds 65536 - 128 to a field of 64 or
more. -/
def Obligations.ImmediatesExtendAsStated : Prop :=
  ∀ f : BitVec 7, (zext7 f).toNat = f.toNat ∧
    (f.toNat < 64 → (sext7 f).toNat = f.toNat) ∧ (64 ≤ f.toNat → (sext7 f).toNat = f.toNat + 65536 - 128)

/-! ## Registers, flags, status -/

/-- 10_state.md R10: each of the sixteen registers holds what was written last; none is hard-wired. -/
def Obligations.RegistersHoldWhatIsWritten : Prop :=
  ∀ (s : State) (r q : Reg) (v : Word), (s.setReg r v).reg q = if q = r then v else s.reg q

/-- 10_state.md R16 (the layout is D1, the width of 4 bits D16: log 7): `SR` is Z + 2 N + 4 V + 8 C, shown as a word with bits
15:4 zero. -/
def Obligations.StatusRegisterLayout : Prop :=
  ∀ f : Flags, f.sr.toNat = f.z.toNat + 2 * f.n.toNat + 4 * f.v.toNat + 8 * f.c.toNat ∧ f.srWord.toNat = f.sr.toNat

/-- 43_xor.md R102 in the layout of 10_state.md R16 (D1, log 7): after an XOR `SR` is 1, 2 or 0. -/
def Obligations.XorStatusIsOneOfThree : Prop :=
  ∀ r : Word, (flagsXor r).sr = if r = 0#16 then 1#4 else if r.getLsbD 15 then 2#4 else 0#4

/-- 60_exceptions.md R142 (the numbers are D12, log 2): the cause codes. -/
def Obligations.CauseCodesAreNumbered : Prop :=
  ∀ (s : State) (p x : Word) (k : AccessKind),
    (s.status = .run → s.statusCode = 0) ∧
    (s.faulted (.illegalOpcode p x)).statusCode = 1 ∧ (s.faulted (.illegalShiftMode p x)).statusCode = 2 ∧
    (s.faulted (.misalignedAccess p x k)).statusCode = 3 ∧ (s.faulted (.outOfBoundsAccess p x k)).statusCode = 4

/-! ## Memory -/

/-- 20_memory.md R32: `MemRead` answers MisalignedAccess at an odd address, else OutOfBoundsAccess at one at or above
`RAM_SIZE`, else the word there (that an odd address is reported before one out of range is D13, log 3; that a fault records
`pc`, the address and the kind is D12, log 2). -/
def Obligations.MemReadAnswersWordOrFault : Prop :=
  ∀ (s : State) (k : AccessKind) (a : Word),
    (a.toNat % 2 = 1 → s.memRead k a = .error (.misalignedAccess s.pc a k)) ∧
    (a.toNat % 2 = 0 → s.ramSize ≤ a.toNat → s.memRead k a = .error (.outOfBoundsAccess s.pc a k)) ∧
    (a.toNat % 2 = 0 → a.toNat < s.ramSize → s.memRead k a = .ok (Memory.readWord s.mem a.toNat))

/-- 20_memory.md R33: `MemWrite` faults as `MemRead` does (the order of the two faults is D13, log 3; their record is D12, log
2), else it replaces exactly the one word at the address, and no register, flag or status. -/
def Obligations.MemWriteReplacesOneWord : Prop :=
  ∀ (s : State) (a v : Word),
    (a.toNat % 2 = 1 → s.memWrite a v = .error (.misalignedAccess s.pc a .store)) ∧
    (a.toNat % 2 = 0 → s.ramSize ≤ a.toNat → s.memWrite a v = .error (.outOfBoundsAccess s.pc a .store)) ∧
    (a.toNat % 2 = 0 → a.toNat < s.ramSize → ∃ t, s.memWrite a v = .ok t ∧
      Memory.readWord t.mem a.toNat = v ∧
      (∀ b : Nat, b % 2 = 0 → b ≠ a.toNat → Memory.readWord t.mem b = Memory.readWord s.mem b) ∧
      SameRegsBut [] s t ∧ t.flags = s.flags ∧ SameStatus s t)

/-- 20_memory.md R42, R45, 46_ldr_pop.md R138: what was stored is what every later read of that address gives, a fetch too;
reads of other addresses give what they gave. -/
def Obligations.StoreIsSeenByEveryLaterRead : Prop :=
  ∀ (s t : State) (ea v : Word), s.memWrite ea v = .ok t → ∀ k : AccessKind,
    t.memRead k ea = .ok v ∧ (∀ b : Word, b ≠ ea → t.memRead k b = s.memRead k b)

/-- 45_str_push.md R125 (the base and the scaling are D6, the wraparound D8: logs 13 and 14; that `x[15]` is the program counter
is D3, log 10): the PC-relative address is the instruction's address plus 2 plus twice the signed immediate, modulo 2^16, and is
even where the program counter is. -/
def Obligations.PcRelativeAddressFormula : Prop :=
  ∀ (s : State) (imm7 : BitVec 7),
    s.eaPcRel imm7 = BitVec.ofInt 16 ((s.reg 15).toNat + 2 + 2 * imm7.toInt) ∧
    ((s.reg 15).toNat % 2 = 0 → (s.eaPcRel imm7).toNat % 2 = 0)

/-! ## What each instruction does, where it completes, and what it keeps -/

/-- 41_add.md R90, R91: both ADD forms complete in every state, with the sum modulo 2^16 (the immediate unsigned); all other
registers, the flags (D7, log 8), memory and status are kept. -/
def Obligations.AddWritesSumAndKeepsTheRest : Prop :=
  ∀ (s : State) (rd rm : Reg) (imm7 : BitVec 7),
    (∃ t, exec (.addR rd rm) s = .next t ∧
      (t.reg rd).toNat = ((s.reg rd).toNat + (s.reg rm).toNat) % 65536 ∧ FrameRegs [rd] s t) ∧
    (∃ t, exec (.addI rd imm7) s = .next t ∧
      (t.reg rd).toNat = ((s.reg rd).toNat + imm7.toNat) % 65536 ∧ FrameRegs [rd] s t)

/-- 42_mul.md R95, R96, R97: both MUL forms complete in every state, with the low 16 bits of the product, the same for the
unsigned and the signed reading (the immediate signed); all other registers, the flags (D7, log 8), memory and status are
kept. -/
def Obligations.MulWritesLowProductAndKeepsTheRest : Prop :=
  ∀ (s : State) (rd rm : Reg) (imm7 : BitVec 7),
    (∃ t, exec (.mulR rd rm) s = .next t ∧
      (t.reg rd).toNat = ((s.reg rd).toNat * (s.reg rm).toNat) % 65536 ∧
      t.reg rd = BitVec.ofInt 16 ((s.reg rd).toInt * (s.reg rm).toInt) ∧ FrameRegs [rd] s t) ∧
    (∃ t, exec (.mulI rd imm7) s = .next t ∧
      t.reg rd = BitVec.ofInt 16 ((s.reg rd).toInt * imm7.toInt) ∧ FrameRegs [rd] s t)

/-- 43_xor.md R100, R101, R102: both XOR forms complete in every state, bit by bit (bits 15:6 of the immediate are its bit
6), with Z and N of the result, V and C cleared; all other registers, memory and status are kept. -/
def Obligations.XorWritesBitsAndFlags : Prop :=
  ∀ (s : State) (rd rm : Reg) (imm7 : BitVec 7),
    (∃ t, exec (.xorR rd rm) s = .next t ∧
      (∀ k, k < 16 → (t.reg rd).getLsbD k = ((s.reg rd).getLsbD k ^^ (s.reg rm).getLsbD k)) ∧
      t.flags = ⟨decide (t.reg rd = 0#16), (t.reg rd).getLsbD 15, false, false⟩ ∧ FrameRegsFlags [rd] s t) ∧
    (∃ t, exec (.xorI rd imm7) s = .next t ∧
      (∀ k, k < 16 → (t.reg rd).getLsbD k = ((s.reg rd).getLsbD k ^^ imm7.getLsbD (min k 6))) ∧
      t.flags = ⟨decide (t.reg rd = 0#16), (t.reg rd).getLsbD 15, false, false⟩ ∧ FrameRegsFlags [rd] s t)

/-- 44_shf.md R106 (D10, log 16): the result and the carryout of the six operations, by arithmetic and by bits. -/
def Obligations.ShiftOpMeansItsArithmetic : Prop :=
  ∀ (v : Word) (n : Nat),
    (16 ≤ n → ∀ k, shiftOp k v n = (0#16, false)) ∧
    (n = 0 → ∀ k, shiftOp k v n = (v, false)) ∧
    (1 ≤ n → n ≤ 15 →
      ((shiftOp .lsr v n).1.toNat = v.toNat / 2 ^ n ∧ (shiftOp .lsr v n).2 = v.getLsbD (n - 1)) ∧
      ((shiftOp .asr v n).1.toInt = v.toInt / 2 ^ n ∧ (shiftOp .asr v n).2 = v.getLsbD (n - 1)) ∧
      ((∀ i, i < 16 → (shiftOp .ror v n).1.getLsbD i = v.getLsbD ((i + n) % 16)) ∧ (shiftOp .ror v n).2 = false) ∧
      ((shiftOp .lsl v n).1.toNat = v.toNat * 2 ^ n % 65536 ∧ (shiftOp .lsl v n).2 = v.getLsbD (16 - n)) ∧
      ((shiftOp .asl v n).1 = BitVec.ofInt 16 (v.toInt * 2 ^ n) ∧ (shiftOp .asl v n).2 = v.getLsbD (16 - n)) ∧
      ((∀ i, i < 16 → (shiftOp .rol v n).1.getLsbD ((i + n) % 16) = v.getLsbD i) ∧ (shiftOp .rol v n).2 = false))

/-- 44_shf.md R108 (D10, log 16): ASL is LSL; ROL by `n` is ROR by `16 - n`; LSR is ASR where bit 15 is clear. -/
def Obligations.ShiftEquivalences : Prop :=
  ∀ (v : Word) (n : Nat),
    shiftOp .asl v n = shiftOp .lsl v n ∧
    (1 ≤ n → n ≤ 15 → shiftOp .rol v n = shiftOp .ror v (16 - n)) ∧
    (v.getLsbD 15 = false → shiftOp .lsr v n = shiftOp .asr v n)

/-- 44_shf.md R105, R107, R110, R112, R114, R116, R118, R120 (the unmasked amount, the carryout, and amounts of 0 and of 16 or
more are D10, `V = N` of the rotates is conflict C2: log 16): the six register forms complete in every state, shift by the whole
unsigned value of `x[rm]`, write all four flags and keep the rest. -/
def Obligations.ShiftRegisterFormsComplete : Prop :=
  ∀ (s : State) (rd rm : Reg),
    ShiftsBy (.lsrR rd rm) .lsr rd (s.reg rm).toNat s ∧ ShiftsBy (.asrR rd rm) .asr rd (s.reg rm).toNat s ∧
    ShiftsBy (.rorR rd rm) .ror rd (s.reg rm).toNat s ∧ ShiftsBy (.lslR rd rm) .lsl rd (s.reg rm).toNat s ∧
    ShiftsBy (.aslR rd rm) .asl rd (s.reg rm).toNat s ∧ ShiftsBy (.rolR rd rm) .rol rd (s.reg rm).toNat s

/-- 44_shf.md R105, R107, R111, R113, R115, R117, R119, R121 (the carryout and an amount of 0 are D10, `V = N` of the rotates is
conflict C2: log 16): the six immediate forms complete in every state, shift by the unsigned 4-bit immediate, write all four
flags and keep the rest. -/
def Obligations.ShiftImmediateFormsComplete : Prop :=
  ∀ (s : State) (rd : Reg) (imm4 : BitVec 4),
    ShiftsBy (.lsrI rd imm4) .lsr rd imm4.toNat s ∧ ShiftsBy (.asrI rd imm4) .asr rd imm4.toNat s ∧
    ShiftsBy (.rorI rd imm4) .ror rd imm4.toNat s ∧ ShiftsBy (.lslI rd imm4) .lsl rd imm4.toNat s ∧
    ShiftsBy (.aslI rd imm4) .asl rd imm4.toNat s ∧ ShiftsBy (.rolI rd imm4) .rol rd imm4.toNat s

/-- 44_shf.md R107: all four flags of every Shf instruction on every execution, with the consequences the rule draws for
rotates, for amounts of 16 or more and for an amount of 0 (the unmasked amount and what amounts of 0 and of 16 or more give are
D10, `V = N` of the rotates is conflict C2: log 16; the layout of `SR` is D1, log 7). -/
def Obligations.ShiftFlagsAndTheirConsequences : Prop :=
  ∀ (s : State) (k : ShiftKind) (rd rm : Reg) (imm4 : BitVec 4) (i : Instr) (n : Nat),
    (i = shiftR k rd rm ∧ n = (s.reg rm).toNat) ∨ (i = shiftI k rd imm4 ∧ n = imm4.toNat) →
    ∃ t, exec i s = .next t ∧
      t.flags.z = decide ((shiftOp k (s.reg rd) n).1 = 0#16) ∧
      t.flags.n = (shiftOp k (s.reg rd) n).1.getLsbD 15 ∧
      t.flags.c = (shiftOp k (s.reg rd) n).2 ∧
      t.flags.v = ((shiftOp k (s.reg rd) n).2 ^^ (shiftOp k (s.reg rd) n).1.getLsbD 15) ∧
      t.flags.sr.toNat = t.flags.z.toNat + 2 * t.flags.n.toNat + 4 * t.flags.v.toNat + 8 * t.flags.c.toNat ∧
      (k = .ror ∨ k = .rol → t.flags.c = false ∧ t.flags.v = t.flags.n) ∧
      (16 ≤ n → t.flags = ⟨true, false, false, false⟩ ∧ t.flags.sr = 1#4) ∧
      (n = 0 → t.flags = ⟨decide (s.reg rd = 0#16), (s.reg rd).getLsbD 15, (s.reg rd).getLsbD 15, false⟩)

/-- 45_str_push.md R127: STR register form completes where `x[rm]` is even and below `RAM_SIZE`: the word there becomes
`x[rd]`, every other byte and every register, flag (D7, log 8) and status is kept; elsewhere it takes the fault (the frozen
state is D11, its record D12, odd before out of range D13: logs 1 to 3). -/
def Obligations.StrRegisterStoresOneWord : Prop :=
  ∀ (s : State) (rd rm : Reg),
    (s.accessible (s.eaReg rm) → ∃ t, exec (.strR rd rm) s = .next t ∧
      Memory.readWord t.mem (s.eaReg rm).toNat = s.reg rd ∧ FrameStore [] (s.eaReg rm) s t) ∧
    FaultsWhereInaccessible (.strR rd rm) .store (s.eaReg rm) s

/-- 45_str_push.md R128: STR immediate form, the same at the PC-relative address (base and scaling D6, wraparound D8: logs 13 and
14; flags kept D7, log 8; faults D11 to D13, logs 1 to 3). R128 and R145 say this form never raises MisalignedAccess, and
PcRelativeAddressFormula has its address even wherever `x[15]` is. The odd-address clause speaks of an odd `x[15]` alone, where
the fetch faults and no step executes the form: it rests on 20_memory.md R33 and on `exec` being total there (log 23). -/
def Obligations.StrImmediateStoresOneWord : Prop :=
  ∀ (s : State) (rd : Reg) (imm7 : BitVec 7),
    (s.accessible (s.eaPcRel imm7) → ∃ t, exec (.strI rd imm7) s = .next t ∧
      Memory.readWord t.mem (s.eaPcRel imm7).toNat = s.reg rd ∧ FrameStore [] (s.eaPcRel imm7) s t) ∧
    FaultsWhereInaccessible (.strI rd imm7) .store (s.eaPcRel imm7) s

/-- 45_str_push.md R129 (the order and the value of `push sr` are D14, log 17; that the address wraps modulo 2^16 is D8, log 14;
flags kept D7, log 8; faults D11 to D13, logs 1 to 3): PUSH completes where `x[13] - 2` modulo 2^16 is even and below `RAM_SIZE`:
the word there becomes the old `x[rd]`, `x[13]` that address. -/
def Obligations.PushStoresBelowStackPointer : Prop :=
  ∀ (s : State) (rd : Reg),
    s.eaPush.toNat = ((s.reg 13).toNat + 65534) % 65536 ∧
    (s.accessible s.eaPush → ∃ t, exec (.push rd) s = .next t ∧
      Memory.readWord t.mem s.eaPush.toNat = s.reg rd ∧ t.reg 13 = s.eaPush ∧ FrameStore [13] s.eaPush s t) ∧
    FaultsWhereInaccessible (.push rd) .store s.eaPush s

/-- 46_ldr_pop.md R135: LDR register form completes where `x[rm]` is even and below `RAM_SIZE`: `x[rd]` becomes the word
there, all else is kept (the flags: D7, log 8); elsewhere it takes the fault (D11 to D13, logs 1 to 3). -/
def Obligations.LdrRegisterLoadsOneWord : Prop :=
  ∀ (s : State) (rd rm : Reg),
    (s.accessible (s.eaReg rm) → ∃ t, exec (.ldrR rd rm) s = .next t ∧
      t.reg rd = Memory.readWord s.mem (s.eaReg rm).toNat ∧ FrameRegs [rd] s t) ∧
    FaultsWhereInaccessible (.ldrR rd rm) .load (s.eaReg rm) s

/-- 46_ldr_pop.md R136: LDR immediate form, the same at the PC-relative address (base and scaling D6, wraparound D8: logs 13 and
14; flags kept D7, log 8; faults D11 to D13, logs 1 to 3). R136 and R145 say this form never raises MisalignedAccess, and
PcRelativeAddressFormula has its address even wherever `x[15]` is. The odd-address clause speaks of an odd `x[15]` alone, where
the fetch faults and no step executes the form: it rests on 20_memory.md R32 and on `exec` being total there (log 23). -/
def Obligations.LdrImmediateLoadsOneWord : Prop :=
  ∀ (s : State) (rd : Reg) (imm7 : BitVec 7),
    (s.accessible (s.eaPcRel imm7) → ∃ t, exec (.ldrI rd imm7) s = .next t ∧
      t.reg rd = Memory.readWord s.mem (s.eaPcRel imm7).toNat ∧ FrameRegs [rd] s t) ∧
    FaultsWhereInaccessible (.ldrI rd imm7) .load (s.eaPcRel imm7) s

/-- 46_ldr_pop.md R137 (`pop sr` is D15, log 18; that `x[13]` wraps modulo 2^16 is D8, log 14; flags kept D7, log 8; faults D11 to
D13, logs 1 to 3): POP completes where `x[13]` is even and below `RAM_SIZE`: `x[rd]` becomes the word there and `x[13]` grows by
2; for `rd` = 13 the loaded word grows by 2. -/
def Obligations.PopLoadsAndAdvances : Prop :=
  ∀ (s : State) (rd : Reg),
    (s.accessible s.eaPop → ∃ t, exec (.pop rd) s = .next t ∧
      (rd ≠ 13 → t.reg rd = Memory.readWord s.mem s.eaPop.toNat ∧ t.reg 13 = s.reg 13 + 2#16) ∧
      (rd = 13 → t.reg 13 = Memory.readWord s.mem s.eaPop.toNat + 2#16) ∧ FrameRegs [rd, 13] s t) ∧
    FaultsWhereInaccessible (.pop rd) .load s.eaPop s

/-- 45_str_push.md R130 (D14, log 17; the wraparound of `x[13]` is D8, log 14): POP into any register but 13 undoes PUSH, and the
pushed word stays in memory. -/
def Obligations.PopUndoesPush : Prop :=
  ∀ (s : State) (ra rb : Reg), s.accessible s.eaPush → rb ≠ 13 →
    ∃ t u, exec (.push ra) s = .next t ∧ exec (.pop rb) t = .next u ∧
      u.reg 13 = s.reg 13 ∧ u.reg rb = s.reg ra ∧ Memory.readWord u.mem s.eaPush.toNat = s.reg ra

/-! ## All instructions -/

/-- 10_state.md R12: an instruction changes no register but those the table of the rule says it writes (one that takes a fault
changes none: D11, log 1). -/
def Obligations.OnlyDestinationsChange : Prop :=
  ∀ (i : Instr) (s t : State), exec i s = .next t → SameRegsBut (destinations i) s t

/-- 10_state.md R17 (D7, log 8; a fault changes no flag: D11, log 1): ADD, MUL, STR, PUSH, LDR and POP never change the flags. -/
def Obligations.OnlyXorAndShiftsWriteFlags : Prop :=
  ∀ (i : Instr) (s t : State), exec i s = .next t → writesFlags i = false → t.flags = s.flags

/-- 20_memory.md R38: an instruction changes no byte of memory but the two of the word its one data access stores (the addresses
are D6, D8 and D14: logs 13, 14 and 17; a fault changes no byte: D11, log 1). -/
def Obligations.OnlyTheStoredWordChanges : Prop :=
  ∀ (i : Instr) (s t : State), exec i s = .next t →
    ∀ a : Nat, (∀ ea, dataAccess s i = some (.store, ea) → a ≠ ea.toNat ∧ a ≠ ea.toNat + 1) →
      Memory.read t.mem a = Memory.read s.mem a

/-- 60_exceptions.md R140, R145, R146, R151 (that a fault is taken as a next state of status FAULT is D11, its record D12, the
order within an access D13: logs 1 to 3; the addresses are D6, D8 and D14: logs 13, 14 and 17): an executed instruction ends in a
fault exactly where its one data access is odd, or even and at or above `RAM_SIZE`; every other instruction completes whatever
its operands. For STR and LDR immediate form the odd case needs an odd `x[15]`, where R145 has no such fault since no step
executes them there: it rests on 20_memory.md R32, R33 and on `exec` being total (log 23). -/
def Obligations.DataFaultsAreExactlyBadAccesses : Prop :=
  ∀ (i : Instr) (s : State), s.status = .run → ∃ t, exec i s = .next t ∧
    t.status = match dataAccess s i with
      | none => .run
      | some (k, a) =>
        if a.toNat % 2 = 1 then .fault (.misalignedAccess s.pc a k)
        else if s.ramSize ≤ a.toNat then .fault (.outOfBoundsAccess s.pc a k)
        else .run

/-- 40_instruction_cycle.md R86 (D4, log 11; that `x[15]` is the program counter is D3, log 10): an instruction redirects iff
register 15 is among those it writes, and one that does not leaves `x[15]` to the step (one that takes a fault too: D11, log 1). -/
def Obligations.RedirectIffProgramCounterIsWritten : Prop :=
  (∀ i : Instr, redirects i = true ↔ (15 : Reg) ∈ destinations i) ∧
  (∀ (i : Instr) (s t : State), exec i s = .next t → redirects i = false → t.reg 15 = s.reg 15)

/-- 10_state.md R18: no instruction reads the flags: two states that differ in them alone step to states that agree on all
else, and whose flags are equal too or still the two they had (that every step answers a next state is the model's choice,
log 1). -/
def Obligations.FlagsNeverInfluenceAStep : Prop :=
  ∀ (s : State) (f : Flags), ∃ t u, step s = .next t ∧ step (s.setFlags f) = .next u ∧
    u.regs = t.regs ∧ u.mem = t.mem ∧ u.status = t.status ∧ u.ramSize = t.ramSize ∧
    (u.flags = t.flags ∨ (t.flags = s.flags ∧ u.flags = f))

/-! ## The step -/

/-- 40_instruction_cycle.md R80, R87: where the bytes at the program counter decode to an instruction, the step is that
instruction's execution, and then `x[15]` grows by 2 modulo 2^16 unless it redirected or took a fault (that a fault leaves `x[15]`
at the instruction is D11, log 1; that `x[15]` is the program counter D3, log 10; what redirects D4, log 11; the wraparound D22,
log 14; which byte of the word lies lower D9, log 15). -/
def Obligations.StepRunsDecodedInstruction : Prop :=
  ∀ (s t : State) (i : Instr), s.status = .run → s.accessible s.pc →
    decodeBytes (Memory.read s.mem s.pc.toNat) (Memory.read s.mem (s.pc.toNat + 1)) = .ok i →
    exec i s = .next t →
    (∀ c, t.status = .fault c → step s = .next t) ∧
    (t.status = .run → redirects i = true → step s = .next t) ∧
    (t.status = .run → redirects i = false → step s = .next (t.setReg 15 (s.reg 15 + 2#16)))

/-- 60_exceptions.md R143, R144, R147, R148 (the frozen state is D11, the record D12, the order of odd before out of bounds D13:
logs 1 to 3): what a step answers where no instruction is reached. -/
def Obligations.FetchAndDecodeFaultsInOrder : Prop :=
  ∀ s : State, s.status = .run →
    (s.pc.toNat % 2 = 1 → step s = .next (s.faulted (.misalignedAccess s.pc s.pc .fetch))) ∧
    (s.pc.toNat % 2 = 0 → s.ramSize ≤ s.pc.toNat → step s = .next (s.faulted (.outOfBoundsAccess s.pc s.pc .fetch))) ∧
    (s.accessible s.pc → decode (Memory.readWord s.mem s.pc.toNat) = .error .illegalOpcode →
      step s = .next (s.faulted (.illegalOpcode s.pc (Memory.readWord s.mem s.pc.toNat)))) ∧
    (s.accessible s.pc → decode (Memory.readWord s.mem s.pc.toNat) = .error .illegalShiftMode →
      step s = .next (s.faulted (.illegalShiftMode s.pc (Memory.readWord s.mem s.pc.toNat))))

/-- 60_exceptions.md R141 (D11, log 1): a step that takes a fault changes nothing but the status, and records the address of
the instruction (60_exceptions.md R142, whose record is D12, log 2; that it is `x[15]` is D3, log 10). -/
def Obligations.FaultsArePrecise : Prop :=
  ∀ (s t : State) (c : Cause), s.status = .run → step s = .next t → t.status = .fault c →
    t = s.faulted c ∧ c.pc = s.reg 15

/-- 10_state.md R21, 60_exceptions.md R141, R150 (D11, log 1): in FAULT any number of steps changes nothing. -/
def Obligations.FaultedMachineStandsForever : Prop :=
  ∀ (n : Nat) (s : State) (c : Cause), s.status = .fault c → Host.Core.run Sys2Proof.core n s = .next s

/-- Every step of every state answers a next state: the model stops nowhere outside the spec's own FAULT status (the model's
choice, log 1). -/
def Obligations.EveryStepHasANextState : Prop := ∀ s : State, ∃ t, step s = .next t

/-- 10_state.md R20 ("never resized"): neither a step nor a reset changes `RAM_SIZE` (a field of State by the model's choice,
log 4). -/
def Obligations.RamIsNeverResized : Prop :=
  (∀ s t : State, step s = .next t → t.ramSize = s.ramSize) ∧
  (∀ (s : State) (initMem : Nat → Word), (s.resetTo initMem).ramSize = s.ramSize)

/-- 40_instruction_cycle.md R89 (D4, log 11; that `x[15]` is the program counter is D3, log 10, and that bits 11:8 name it D2,
log 9): `add pc, 0x00` (word 0xCF80) executes itself for ever and changes nothing. -/
def Obligations.AddZeroToPcRepeatsForever : Prop :=
  ∀ (n : Nat) (s : State), s.status = .run → s.accessible s.pc → Memory.readWord s.mem s.pc.toNat = 0xCF80#16 →
    SafeRun n s ∧ Host.Core.run Sys2Proof.core n s = .next s

/-- Every step keeps the invariant: a legal `RAM_SIZE` (its bounds are D8, log 4), memory in canonical form and within the RAM
(10_state.md R20, R30; the canonical form is the model's, log 5), and a recorded fault that is true of the frozen machine
(60_exceptions.md R142 to R147; the frozen state is D11, the record D12, odd before out of range D13: logs 1 to 3). -/
def Obligations.StepKeepsInvariant : Prop := ∀ s t : State, s.Inv → step s = .next t → t.Inv

/-- The invariant holds at `State.reset` (whose memory and `RAM_SIZE` are the model's choice, logs 4 and 5; the bounds of a legal
`RAM_SIZE` are D8, log 4). -/
def Obligations.InvariantHoldsAtReset : Prop := State.reset.Inv

/-! ## Reset and the boundary -/

/-- 70_reset_and_hazards.md R165, 10_state.md R23 (flags and RAM contents at reset are D16, the status D11, the bounds of a legal
`RAM_SIZE` D8: logs 1, 4, 5 and 6): `Reset(INIT_MEM)` from any state leaves every register 0, every flag clear, `RUN`, and
`INIT_MEM(a)` at every even address of the RAM; the invariant holds after it. -/
def Obligations.ResetLeavesStatedValues : Prop :=
  ∀ (s : State) (initMem : Nat → Word), Config.legalRamSize s.ramSize →
    (∀ r : Reg, (s.resetTo initMem).reg r = 0#16) ∧
    (s.resetTo initMem).flags = ⟨false, false, false, false⟩ ∧ (s.resetTo initMem).status = .run ∧
    (∀ a : Nat, a % 2 = 0 → a < s.ramSize → Memory.readWord (s.resetTo initMem).mem a = initMem a) ∧
    (s.resetTo initMem).Inv

/-- `State.reset` is the reset of a RAM of 65536 bytes that are all 0 (the model's choice, logs 4 and 5). -/
def Obligations.ResetStateIsZeroImageReset : Prop :=
  State.reset = ({ State.reset with status := .fault (.illegalOpcode 0#16 0#16) } : State).resetTo (fun _ => 0#16)

/-- An instruction word placed with `State.withFetchWord` is what the next fetch reads, where the program counter is one a
fetch may use (log 22). -/
def Obligations.PlacedWordIsFetched : Prop :=
  ∀ (s : State) (w : Word), s.accessible s.pc → (s.withFetchWord 16 w.toNat).fetch = .ok w

/-! ## Text form -/

/-- 30_encoding.md R75, R77 (the spelling is D20, log 27): the text of an instruction reads back as that instruction, at any
line and with any labels (that a token spelled as a register or an immediate is never read as a label of that spelling is the
model's choice, log 26). -/
def Obligations.DisassemblyReadsBack : Prop :=
  ∀ (symbols : Symbols) (k : Nat) (i : Instr), readInstr symbols k (tokenize (disassemble i)) = .ok i

/-- 30_encoding.md R76 (D6, log 13; that line `k` lies at byte address `2 k` is D9, log 15; the wraparound D8, log 14; that `x[15]`
is the program counter D3, log 10): the field the assembler makes of a label bound to line `l`, in the instruction of line `k` at
byte address `2 k`, addresses byte `2 l`. -/
def Obligations.LabelFieldReachesItsLine : Prop :=
  ∀ (s : State) (k l v : Nat), labelField? k l = some v → s.reg 15 = BitVec.ofNat 16 (2 * k) →
    v < 128 ∧ s.eaPcRel (BitVec.ofNat 7 v) = BitVec.ofNat 16 (2 * l)
end

