-- ==== Sys2Proof/Laws/Memory.lean ====
section
/-! SUPPORT. The laws of memory: a read after a write, the canonical form, the bounds of what is listed. The read-after-write
laws hold of every list of cells, canonical or not. -/

namespace Sys2Proof.Machine

/-! ## Bytes of a word -/

@[simp] theorem wordOfBytes_lo_hi (w : Word) : wordOfBytes (loByte w) (hiByte w) = w := by
  apply BitVec.eq_of_getLsbD_eq
  intro i hi
  simp only [wordOfBytes, loByte, hiByte, BitVec.getLsbD_append, BitVec.getLsbD_extractLsb']
  split
  · simp_all
  · rename_i h
    have : 8 + (i - 8) = i := by omega
    have h8 : i - 8 < 8 := by omega
    simp [this, h8]

/-! ## A read after a write -/

theorem Memory.read_insert (m : Memory) (a b : Nat) (v : Byte) :
    Memory.read (Memory.insert m a v) b = if b = a then v else Memory.read m b := by
  induction m with
  | nil => simp [Memory.insert, Memory.read, eq_comm]
  | cons c m ih =>
    obtain ⟨k, x⟩ := c
    simp only [Memory.insert]
    split
    · simp only [Memory.read, @eq_comm _ b a]
    · split
      · rename_i hk; subst hk; by_cases h : a = b <;> simp [Memory.read, h, @eq_comm _ b a]
      · rename_i hk
        by_cases h : k = b
        · have : b ≠ a := by omega
          simp [Memory.read, h, this]
        · simp [Memory.read, h, ih]

theorem Memory.read_erase (m : Memory) (a b : Nat) :
    Memory.read (Memory.erase m a) b = if b = a then Config.blankByte else Memory.read m b := by
  induction m with
  | nil => simp [Memory.erase, Memory.read]
  | cons c m ih =>
    obtain ⟨k, x⟩ := c
    simp only [Memory.erase, List.filter_cons] at ih ⊢
    by_cases hk : k = a
    · subst hk
      simp only [bne_self_eq_false, Bool.false_eq_true, if_false, ih, Memory.read]
      by_cases h : b = k
      · simp [h]
      · simp [h, Ne.symm h]
    · have hb : (k != a) = true := by simpa using hk
      simp only [hb, if_true, Memory.read, ih]
      by_cases h : k = b
      · subst h; simp [hk]
      · simp [h]

/-- Reading any byte after a write of one. -/
theorem Memory.read_write (m : Memory) (a b : Nat) (v : Byte) :
    Memory.read (Memory.write m a v) b = if b = a then v else Memory.read m b := by
  simp only [Memory.write]
  split
  · rename_i h; subst h; exact Memory.read_erase m a b
  · exact Memory.read_insert m a b v

/-- Reading any byte after a write of a word: its low byte at `a`, its high byte at `a + 1`. -/
theorem Memory.read_writeWord (m : Memory) (a b : Nat) (w : Word) :
    Memory.read (Memory.writeWord m a w) b =
      if b = a + 1 then hiByte w else if b = a then loByte w else Memory.read m b := by
  simp [Memory.writeWord, Memory.read_write]

@[simp] theorem Memory.readWord_writeWord_self (m : Memory) (a : Nat) (w : Word) :
    Memory.readWord (Memory.writeWord m a w) a = w := by
  simp [Memory.readWord, Memory.read_writeWord]

/-- A word that shares no byte with the one written reads as before. -/
theorem Memory.readWord_writeWord_of_disjoint {m : Memory} {a b : Nat} {w : Word} (h : b + 1 < a ∨ a + 1 < b) :
    Memory.readWord (Memory.writeWord m a w) b = Memory.readWord m b := by
  have h1 : b ≠ a + 1 := by omega
  have h2 : b ≠ a := by omega
  have h3 : b + 1 ≠ a := by omega
  simp [Memory.readWord, Memory.read_writeWord, h1, h2, h3]

/-! ## The cells listed after a write -/

theorem Memory.mem_insert {m : Memory} {a : Nat} {v : Byte} {c : Host.Cell} (h : c ∈ Memory.insert m a v) :
    c = (a, v) ∨ c ∈ m := by
  induction m with
  | nil => simpa [Memory.insert] using h
  | cons d m ih =>
    obtain ⟨k, x⟩ := d
    simp only [Memory.insert] at h
    split at h
    · simpa using h
    · split at h
      · rcases List.mem_cons.1 h with h | h
        · exact .inl h
        · exact .inr (List.mem_cons_of_mem _ h)
      · rcases List.mem_cons.1 h with h | h
        · exact .inr (h ▸ List.mem_cons_self)
        · exact (ih h).imp id (List.mem_cons_of_mem _)

/-- A cell listed after a write was listed before, or is the one written. -/
theorem Memory.mem_write {m : Memory} {a : Nat} {v : Byte} {c : Host.Cell} (h : c ∈ Memory.write m a v) :
    c = (a, v) ∨ c ∈ m := by
  simp only [Memory.write] at h
  split at h
  · exact .inr (List.mem_filter.1 h).1
  · exact Memory.mem_insert h

/-- A write inside the RAM lists no address outside it. -/
theorem Memory.write_bounded {m : Memory} {a n : Nat} {v : Byte} (ha : a < n) (h : ∀ c ∈ m, c.1 < n) :
    ∀ c ∈ Memory.write m a v, c.1 < n := by
  intro c hc
  rcases Memory.mem_write hc with rfl | hc
  · exact ha
  · exact h c hc

/-- A write of a word inside the RAM lists no address outside it. -/
theorem Memory.writeWord_bounded {m : Memory} {a n : Nat} {w : Word} (ha : a + 1 < n) (h : ∀ c ∈ m, c.1 < n) :
    ∀ c ∈ Memory.writeWord m a w, c.1 < n :=
  Memory.write_bounded ha (Memory.write_bounded (by omega) h)

/-! ## The canonical form -/

theorem Memory.insert_sorted {m : Memory} {a : Nat} {v : Byte} (h : m.Pairwise (fun x y => x.1 < y.1)) :
    (Memory.insert m a v).Pairwise (fun x y => x.1 < y.1) := by
  induction m with
  | nil => simp [Memory.insert]
  | cons d m ih =>
    obtain ⟨k, x⟩ := d
    obtain ⟨hk, hm⟩ := List.pairwise_cons.1 h
    simp only [Memory.insert]
    split
    · rename_i hlt
      refine List.pairwise_cons.2 ⟨?_, h⟩
      intro y hy
      rcases List.mem_cons.1 hy with rfl | hy
      · exact hlt
      · exact lt_trans hlt (hk y hy)
    · split
      · rename_i heq
        subst heq
        exact List.pairwise_cons.2 ⟨hk, hm⟩
      · refine List.pairwise_cons.2 ⟨?_, ih hm⟩
        intro y hy
        rcases Memory.mem_insert hy with rfl | hy
        · simp only; omega
        · exact hk y hy

/-- A write keeps the canonical form. -/
theorem Memory.write_wf {m : Memory} {a : Nat} {v : Byte} (h : Memory.wf m) : Memory.wf (Memory.write m a v) := by
  obtain ⟨hs, hb⟩ := h
  simp only [Memory.write]
  split
  · exact ⟨List.Pairwise.filter _ hs, fun c hc => hb c (List.mem_filter.1 hc).1⟩
  · rename_i hv
    refine ⟨Memory.insert_sorted hs, fun c hc => ?_⟩
    rcases Memory.mem_insert hc with rfl | hc
    · exact hv
    · exact hb c hc

/-- A write of a word keeps the canonical form. -/
theorem Memory.writeWord_wf {m : Memory} {a : Nat} {w : Word} (h : Memory.wf m) : Memory.wf (Memory.writeWord m a w) :=
  Memory.write_wf (Memory.write_wf h)

/-- The memory of `State.reset` has the canonical form. -/
theorem Memory.reset_wf : Memory.wf State.reset.mem := by decide

/-! ## The memory of a reset -/

/-- A cell put before a memory of higher addresses keeps the canonical form. -/
theorem Memory.prepend_wf {a : Nat} {b : Byte} {m : Memory} (h : Memory.wf m) (ha : ∀ c ∈ m, a < c.1) :
    Memory.wf (Memory.prepend a b m) := by
  simp only [Memory.prepend]
  split
  · exact h
  · rename_i hb
    refine ⟨List.pairwise_cons.2 ⟨ha, h.1⟩, fun c hc => ?_⟩
    rcases List.mem_cons.1 hc with rfl | hc
    · exact hb
    · exact h.2 c hc

theorem Memory.mem_prepend {a : Nat} {b : Byte} {m : Memory} {c : Host.Cell} (h : c ∈ Memory.prepend a b m) :
    c.1 = a ∨ c ∈ m := by
  simp only [Memory.prepend] at h
  split at h
  · exact .inr h
  · rcases List.mem_cons.1 h with rfl | h
    · exact .inl rfl
    · exact .inr h

/-- Reading a byte after a cell was put before a memory that does not list its address. -/
theorem Memory.read_prepend (a b : Nat) (v : Byte) (m : Memory) (h : Memory.read m a = Config.blankByte) :
    Memory.read (Memory.prepend a v m) b = if b = a then v else Memory.read m b := by
  simp only [Memory.prepend]
  split
  · rename_i hv; subst hv; by_cases hb : b = a <;> simp_all
  · simp [Memory.read, eq_comm]

end Sys2Proof.Machine
end

