-- ==== Sys2Proof/Laws/State.lean ====
section
/-! SUPPORT. One lemma per field per update of the state. -/

namespace Sys2Proof.Machine

variable (s : State) (r q : Reg) (v w : Word) (f : Flags) (c : Cause) (m : Memory)

/-! ## A register write -/

@[simp] theorem State.setReg_flags : (s.setReg r v).flags = s.flags := rfl
@[simp] theorem State.setReg_mem : (s.setReg r v).mem = s.mem := rfl
@[simp] theorem State.setReg_status : (s.setReg r v).status = s.status := rfl
@[simp] theorem State.setReg_ramSize : (s.setReg r v).ramSize = s.ramSize := rfl

/-- Reading any register after a write of one. -/
theorem State.reg_setReg : (s.setReg r v).reg q = if q = r then v else s.reg q := by
  simp [State.reg, State.setReg, Vector.getElem_set, Fin.ext_iff, eq_comm]

@[simp] theorem State.reg_setReg_self : (s.setReg r v).reg r = v := by simp [State.reg_setReg]

theorem State.reg_setReg_of_ne {s : State} {r q : Reg} {v : Word} (h : q ≠ r) : (s.setReg r v).reg q = s.reg q := by
  simp [State.reg_setReg, h]

/-! ## A write of the flags -/

@[simp] theorem State.setFlags_regs : (s.setFlags f).regs = s.regs := rfl
@[simp] theorem State.setFlags_flags : (s.setFlags f).flags = f := rfl
@[simp] theorem State.setFlags_mem : (s.setFlags f).mem = s.mem := rfl
@[simp] theorem State.setFlags_status : (s.setFlags f).status = s.status := rfl
@[simp] theorem State.setFlags_ramSize : (s.setFlags f).ramSize = s.ramSize := rfl
@[simp] theorem State.setFlags_reg : (s.setFlags f).reg q = s.reg q := rfl
@[simp] theorem State.setFlags_pc : (s.setFlags f).pc = s.pc := rfl

/-- The two kinds of write do not disturb one another. -/
theorem State.setReg_setFlags : (s.setFlags f).setReg r v = (s.setReg r v).setFlags f := rfl

@[simp] theorem State.setFlags_setFlags (g : Flags) : (s.setFlags f).setFlags g = s.setFlags g := rfl

/-! ## Taking a fault -/

@[simp] theorem State.raiseFault_regs : (s.raiseFault c).regs = s.regs := rfl
@[simp] theorem State.raiseFault_flags : (s.raiseFault c).flags = s.flags := rfl
@[simp] theorem State.raiseFault_mem : (s.raiseFault c).mem = s.mem := rfl
@[simp] theorem State.raiseFault_status : (s.raiseFault c).status = .fault c := rfl
@[simp] theorem State.raiseFault_ramSize : (s.raiseFault c).ramSize = s.ramSize := rfl
@[simp] theorem State.raiseFault_reg : (s.raiseFault c).reg q = s.reg q := rfl
@[simp] theorem State.raiseFault_pc : (s.raiseFault c).pc = s.pc := rfl

/-! ## A change of memory -/

@[simp] theorem State.reg_with_mem : ({ s with mem := m } : State).reg q = s.reg q := rfl
@[simp] theorem State.pc_with_mem : ({ s with mem := m } : State).pc = s.pc := rfl

/-! ## The shared results of the meanings -/

@[simp] theorem State.combine_flags (g : Word → Word → Word) (o : Operand2) : (s.combine g r o).flags = s.flags := rfl
@[simp] theorem State.combine_mem (g : Word → Word → Word) (o : Operand2) : (s.combine g r o).mem = s.mem := rfl
@[simp] theorem State.combine_status (g : Word → Word → Word) (o : Operand2) : (s.combine g r o).status = s.status := rfl
@[simp] theorem State.combine_ramSize (g : Word → Word → Word) (o : Operand2) :
    (s.combine g r o).ramSize = s.ramSize := rfl
@[simp] theorem State.combineXor_flags (o : Operand2) :
    (s.combineXor r o).flags = flagsXor (xorWord (s.reg r) (s.op2Value o)) := rfl
@[simp] theorem State.combineXor_mem (o : Operand2) : (s.combineXor r o).mem = s.mem := rfl
@[simp] theorem State.combineXor_status (o : Operand2) : (s.combineXor r o).status = s.status := rfl
@[simp] theorem State.combineXor_ramSize (o : Operand2) : (s.combineXor r o).ramSize = s.ramSize := rfl
@[simp] theorem State.shiftBy_flags (k : ShiftKind) (n : Nat) :
    (s.shiftBy k r n).flags = flagsShf (shiftOp k (s.reg r) n).1 (shiftOp k (s.reg r) n).2 := rfl
@[simp] theorem State.shiftBy_mem (k : ShiftKind) (n : Nat) : (s.shiftBy k r n).mem = s.mem := rfl
@[simp] theorem State.shiftBy_status (k : ShiftKind) (n : Nat) : (s.shiftBy k r n).status = s.status := rfl
@[simp] theorem State.shiftBy_ramSize (k : ShiftKind) (n : Nat) : (s.shiftBy k r n).ramSize = s.ramSize := rfl

/-- The registers after ADD or MUL. -/
theorem State.combine_reg (g : Word → Word → Word) (o : Operand2) :
    (s.combine g r o).reg q = if q = r then g (s.reg r) (s.op2Value o) else s.reg q := State.reg_setReg ..

/-- The registers after XOR. -/
theorem State.combineXor_reg (o : Operand2) :
    (s.combineXor r o).reg q = if q = r then xorWord (s.reg r) (s.op2Value o) else s.reg q := State.reg_setReg ..

/-- The registers after a shift. -/
theorem State.shiftBy_reg (k : ShiftKind) (n : Nat) :
    (s.shiftBy k r n).reg q = if q = r then (shiftOp k (s.reg r) n).1 else s.reg q := State.reg_setReg ..

end Sys2Proof.Machine
end

