-- ==== Sys2Proof/Laws/Ops.lean ====
section
/-! SUPPORT. For each shared operation, once, everything it can do. -/

namespace Sys2Proof.Machine

/-! ## Accesses -/

/-- Bit 0 of an address is its parity. -/
theorem lsb_eq_odd (a : Word) : a.getLsbD 0 = decide (a.toNat % 2 = 1) := by
  simp [BitVec.getLsbD, Nat.testBit_zero]

/-- The three cases of an access: odd, even and out of bounds, performed (20_memory.md R32, R33, R36). -/
theorem State.accessFault_cases (s : State) (k : AccessKind) (a : Word) :
    (a.toNat % 2 = 1 ∧ s.accessFault k a = some (.misalignedAccess s.pc a k)) ∨
    (a.toNat % 2 = 0 ∧ s.ramSize ≤ a.toNat ∧ s.accessFault k a = some (.outOfBoundsAccess s.pc a k)) ∨
    (a.toNat % 2 = 0 ∧ a.toNat < s.ramSize ∧ s.accessFault k a = none) := by
  unfold State.accessFault
  rw [lsb_eq_odd]
  by_cases h : a.toNat % 2 = 1
  · simp [h]
  · have h0 : a.toNat % 2 = 0 := by omega
    by_cases hb : s.ramSize ≤ a.toNat
    · simp [h0, hb]
    · simp [h0, hb]; omega

theorem State.accessFault_odd {s : State} {k : AccessKind} {a : Word} (h : a.toNat % 2 = 1) :
    s.accessFault k a = some (.misalignedAccess s.pc a k) := by
  rcases s.accessFault_cases k a with ⟨_, e⟩ | ⟨h', _⟩ | ⟨h', _⟩
  · exact e
  all_goals omega

theorem State.accessFault_out {s : State} {k : AccessKind} {a : Word} (h : a.toNat % 2 = 0) (hb : s.ramSize ≤ a.toNat) :
    s.accessFault k a = some (.outOfBoundsAccess s.pc a k) := by
  rcases s.accessFault_cases k a with ⟨h', _⟩ | ⟨_, _, e⟩ | ⟨_, h', _⟩
  · omega
  · exact e
  · omega

theorem State.accessFault_none {s : State} {k : AccessKind} {a : Word} (h : a.toNat % 2 = 0) (hb : a.toNat < s.ramSize) :
    s.accessFault k a = none := by
  rcases s.accessFault_cases k a with ⟨h', _⟩ | ⟨_, h', _⟩ | ⟨_, _, e⟩
  · omega
  · omega
  · exact e

/-- A read answers the fault of the access or the word (20_memory.md R32). -/
theorem State.memRead_eq (s : State) (k : AccessKind) (a : Word) :
    s.memRead k a = match s.accessFault k a with
      | some c => .error c
      | none => .ok (Memory.readWord s.mem a.toNat) := rfl

/-- A write answers the fault of the access or the state with the one word replaced (20_memory.md R33). -/
theorem State.memWrite_eq (s : State) (a v : Word) :
    s.memWrite a v = match s.accessFault .store a with
      | some c => .error c
      | none => .ok { s with mem := Memory.writeWord s.mem a.toNat v } := rfl

/-- Flags play no part in an access. -/
@[simp] theorem State.accessFault_setFlags (s : State) (f : Flags) (k : AccessKind) (a : Word) :
    (s.setFlags f).accessFault k a = s.accessFault k a := rfl

/-! ## What the meanings share -/

@[simp] theorem State.settle_ok (s t : State) : s.settle (.ok t) = .next t := rfl
@[simp] theorem State.settle_error (s : State) (c : Cause) : s.settle (.error c) = .next (s.raiseFault c) := rfl

/-- A store answers the fault of the access, taken, or the state with the one word replaced. -/
theorem State.storeAt_eq (s : State) (rd : Reg) (ea : Word) :
    s.storeAt rd ea = match s.accessFault .store ea with
      | some c => .next (s.raiseFault c)
      | none => .next { s with mem := Memory.writeWord s.mem ea.toNat (s.reg rd) } := by
  simp only [State.storeAt, State.memWrite_eq]
  split <;> rfl

/-- A load answers the fault of the access, taken, or the state with the one register written. -/
theorem State.loadFrom_eq (s : State) (rd : Reg) (ea : Word) :
    s.loadFrom rd ea = match s.accessFault .load ea with
      | some c => .next (s.raiseFault c)
      | none => .next (s.setReg rd (Memory.readWord s.mem ea.toNat)) := by
  simp only [State.loadFrom, State.memRead_eq]
  split <;> rfl

/-- PUSH answers the fault of the store, taken, or the word stored and `x[13]` at it. -/
theorem execPush_eq (rd : Reg) (s : State) :
    execPush rd s = match s.accessFault .store s.eaPush with
      | some c => .next (s.raiseFault c)
      | none => .next
          (({ s with mem := Memory.writeWord s.mem s.eaPush.toNat (s.reg rd) } : State).setReg Reg.sp s.eaPush) := by
  simp only [execPush, State.memWrite_eq]
  split <;> rfl

/-- POP answers the fault of the load, taken, or `x[rd]` loaded and `x[13]` advanced after it. -/
theorem execPop_eq (rd : Reg) (s : State) :
    execPop rd s = match s.accessFault .load s.eaPop with
      | some c => .next (s.raiseFault c)
      | none => .next (s.setReg rd (Memory.readWord s.mem s.eaPop.toNat)).advanceSp := by
  simp only [execPop, State.memRead_eq]
  split <;> rfl

/-! ## The phases of a step -/

/-- Nothing happens in FAULT (40_instruction_cycle.md R80). -/
theorem step_of_fault {s : State} {c : Cause} (h : s.status = .fault c) : step s = .next s := by
  simp [step, h]

/-- A fetch or decode fault is taken. -/
theorem step_of_error {s : State} {c : Cause} (h : s.status = .run) (hi : s.fetchInstr = .error c) :
    step s = .next (s.raiseFault c) := by
  simp [step, h, hi]

/-- A decoded instruction is executed, and the program counter is updated after it. -/
theorem step_of_instr {s : State} {i : Instr} (h : s.status = .run) (hi : s.fetchInstr = .ok i) :
    step s = finishStep i s (exec i s) := by
  simp [step, h, hi]

/-- The program-counter update after a fault. -/
theorem advancePc_fault {i : Instr} {s t : State} {c : Cause} (h : t.status = .fault c) : advancePc i s t = t := by
  simp [advancePc, h]

/-- The program-counter update after a completed instruction. -/
theorem advancePc_run {i : Instr} {s t : State} (h : t.status = .run) :
    advancePc i s t = if redirects i then t else t.setReg Reg.pc (nextPc s.pc) := by
  simp [advancePc, h]

@[simp] theorem finishStep_next (i : Instr) (s t : State) : finishStep i s (.next t) = .next (advancePc i s t) := rfl

end Sys2Proof.Machine
end

