-- ==== Sys2Proof/Laws/PerInstr.lean ====
section
/-! SUPPORT. Families of statements made once per instruction. -/

namespace Sys2Proof

/-- The raw form of the instruction passes the checks of 30_encoding.md R72 and R73 and gives the instruction back, and its row
is one of spec/opcode_table.json. -/
def Laws.Formed.Statement (i : Instr) : Prop := i.raw.check = some i ∧ rowOf i ∈ opcodeTable

theorem regField_val (r : Reg) : regField? r.val = some r := by simp [regField?]

theorem imm7Field_toNat (v : BitVec 7) : imm7Field? v.toNat = some v := by
  have h : v.toNat < 128 := v.isLt
  simp [imm7Field?, h]

theorem imm4Field_toNat (v : BitVec 4) : imm4Field? v.toNat = some v := by
  have h : v.toNat < 16 := v.isLt
  simp [imm4Field?, h]

theorem Laws.Formed.addR (rd rm : Reg) : Laws.Formed.Statement (.addR rd rm) :=
  ⟨by simp [RawInstr.check, Instr.raw, regOrImm7?, regField_val], by simp [opcodeTable, rowSamples, rowOf]⟩

theorem Laws.Formed.addI (rd : Reg) (imm7 : BitVec 7) : Laws.Formed.Statement (.addI rd imm7) :=
  ⟨by simp [RawInstr.check, Instr.raw, regOrImm7?, regField_val, imm7Field_toNat], by simp [opcodeTable, rowSamples, rowOf]⟩

theorem Laws.Formed.mulR (rd rm : Reg) : Laws.Formed.Statement (.mulR rd rm) :=
  ⟨by simp [RawInstr.check, Instr.raw, regOrImm7?, regField_val], by simp [opcodeTable, rowSamples, rowOf]⟩

theorem Laws.Formed.mulI (rd : Reg) (imm7 : BitVec 7) : Laws.Formed.Statement (.mulI rd imm7) :=
  ⟨by simp [RawInstr.check, Instr.raw, regOrImm7?, regField_val, imm7Field_toNat], by simp [opcodeTable, rowSamples, rowOf]⟩

theorem Laws.Formed.xorR (rd rm : Reg) : Laws.Formed.Statement (.xorR rd rm) :=
  ⟨by simp [RawInstr.check, Instr.raw, regOrImm7?, regField_val], by simp [opcodeTable, rowSamples, rowOf]⟩

theorem Laws.Formed.xorI (rd : Reg) (imm7 : BitVec 7) : Laws.Formed.Statement (.xorI rd imm7) :=
  ⟨by simp [RawInstr.check, Instr.raw, regOrImm7?, regField_val, imm7Field_toNat], by simp [opcodeTable, rowSamples, rowOf]⟩

theorem Laws.Formed.lsrR (rd rm : Reg) : Laws.Formed.Statement (.lsrR rd rm) :=
  ⟨by simp [RawInstr.check, Instr.raw, regOrImm4?, regField_val], by simp [opcodeTable, rowSamples, rowOf]⟩

theorem Laws.Formed.lsrI (rd : Reg) (imm4 : BitVec 4) : Laws.Formed.Statement (.lsrI rd imm4) :=
  ⟨by simp [RawInstr.check, Instr.raw, regOrImm4?, regField_val, imm4Field_toNat], by simp [opcodeTable, rowSamples, rowOf]⟩

theorem Laws.Formed.asrR (rd rm : Reg) : Laws.Formed.Statement (.asrR rd rm) :=
  ⟨by simp [RawInstr.check, Instr.raw, regOrImm4?, regField_val], by simp [opcodeTable, rowSamples, rowOf]⟩

theorem Laws.Formed.asrI (rd : Reg) (imm4 : BitVec 4) : Laws.Formed.Statement (.asrI rd imm4) :=
  ⟨by simp [RawInstr.check, Instr.raw, regOrImm4?, regField_val, imm4Field_toNat], by simp [opcodeTable, rowSamples, rowOf]⟩

theorem Laws.Formed.rorR (rd rm : Reg) : Laws.Formed.Statement (.rorR rd rm) :=
  ⟨by simp [RawInstr.check, Instr.raw, regOrImm4?, regField_val], by simp [opcodeTable, rowSamples, rowOf]⟩

theorem Laws.Formed.rorI (rd : Reg) (imm4 : BitVec 4) : Laws.Formed.Statement (.rorI rd imm4) :=
  ⟨by simp [RawInstr.check, Instr.raw, regOrImm4?, regField_val, imm4Field_toNat], by simp [opcodeTable, rowSamples, rowOf]⟩

theorem Laws.Formed.lslR (rd rm : Reg) : Laws.Formed.Statement (.lslR rd rm) :=
  ⟨by simp [RawInstr.check, Instr.raw, regOrImm4?, regField_val], by simp [opcodeTable, rowSamples, rowOf]⟩

theorem Laws.Formed.lslI (rd : Reg) (imm4 : BitVec 4) : Laws.Formed.Statement (.lslI rd imm4) :=
  ⟨by simp [RawInstr.check, Instr.raw, regOrImm4?, regField_val, imm4Field_toNat], by simp [opcodeTable, rowSamples, rowOf]⟩

theorem Laws.Formed.aslR (rd rm : Reg) : Laws.Formed.Statement (.aslR rd rm) :=
  ⟨by simp [RawInstr.check, Instr.raw, regOrImm4?, regField_val], by simp [opcodeTable, rowSamples, rowOf]⟩

theorem Laws.Formed.aslI (rd : Reg) (imm4 : BitVec 4) : Laws.Formed.Statement (.aslI rd imm4) :=
  ⟨by simp [RawInstr.check, Instr.raw, regOrImm4?, regField_val, imm4Field_toNat], by simp [opcodeTable, rowSamples, rowOf]⟩

theorem Laws.Formed.rolR (rd rm : Reg) : Laws.Formed.Statement (.rolR rd rm) :=
  ⟨by simp [RawInstr.check, Instr.raw, regOrImm4?, regField_val], by simp [opcodeTable, rowSamples, rowOf]⟩

theorem Laws.Formed.rolI (rd : Reg) (imm4 : BitVec 4) : Laws.Formed.Statement (.rolI rd imm4) :=
  ⟨by simp [RawInstr.check, Instr.raw, regOrImm4?, regField_val, imm4Field_toNat], by simp [opcodeTable, rowSamples, rowOf]⟩

theorem Laws.Formed.strR (rd rm : Reg) : Laws.Formed.Statement (.strR rd rm) :=
  ⟨by simp [RawInstr.check, Instr.raw, regOrImm7?, regField_val], by simp [opcodeTable, rowSamples, rowOf]⟩

theorem Laws.Formed.strI (rd : Reg) (imm7 : BitVec 7) : Laws.Formed.Statement (.strI rd imm7) :=
  ⟨by simp [RawInstr.check, Instr.raw, regOrImm7?, regField_val, imm7Field_toNat], by simp [opcodeTable, rowSamples, rowOf]⟩

theorem Laws.Formed.push (rd : Reg) : Laws.Formed.Statement (.push rd) :=
  ⟨by simp [RawInstr.check, Instr.raw, noOperand?, regField_val], by simp [opcodeTable, rowSamples, rowOf]⟩

theorem Laws.Formed.ldrR (rd rm : Reg) : Laws.Formed.Statement (.ldrR rd rm) :=
  ⟨by simp [RawInstr.check, Instr.raw, regOrImm7?, regField_val], by simp [opcodeTable, rowSamples, rowOf]⟩

theorem Laws.Formed.ldrI (rd : Reg) (imm7 : BitVec 7) : Laws.Formed.Statement (.ldrI rd imm7) :=
  ⟨by simp [RawInstr.check, Instr.raw, regOrImm7?, regField_val, imm7Field_toNat], by simp [opcodeTable, rowSamples, rowOf]⟩

theorem Laws.Formed.pop (rd : Reg) : Laws.Formed.Statement (.pop rd) :=
  ⟨by simp [RawInstr.check, Instr.raw, noOperand?, regField_val], by simp [opcodeTable, rowSamples, rowOf]⟩

end Sys2Proof
end

