-- ==== Sys2Proof/Tests/Slice0.lean ====
section
/-! SUPPORT. Tests of the model: what the well-formedness checks refuse, one written-out word for each constructor, single steps
with results from 95_test_vectors.md (the vector's id ends the name), and states that meet the hypotheses of the statements. -/

namespace Sys2Proof.Machine.Tests

/-! ## Well-formedness: an ill-formed term for each check -/

/-- 30_encoding.md R72: `r16` is rejected, as destination and as operand. -/
theorem test_register_16_refused :
    (⟨.mul, 16, .reg 0⟩ : RawInstr).check = none ∧ (⟨.mul, 0, .reg 16⟩ : RawInstr).check = none ∧
    (⟨.push, 16, .none⟩ : RawInstr).check = none := by decide

/-- 30_encoding.md R73: 128 is no 7-bit field. -/
theorem test_imm7_128_refused :
    (⟨.add, 0, .imm 128⟩ : RawInstr).check = none ∧ (⟨.str, 0, .imm 128⟩ : RawInstr).check = none ∧
    (⟨.add, 0, .imm 127⟩ : RawInstr).check = some (.addI 0 127) := by decide

/-- 30_encoding.md R73: 16 is no shift immediate. -/
theorem test_imm4_16_refused :
    (⟨.lsr, 0, .imm 16⟩ : RawInstr).check = none ∧ (⟨.lsr, 0, .imm 15⟩ : RawInstr).check = some (.lsrI 0 15) := by decide

/-- 30_encoding.md R75: a missing operand and one too many. -/
theorem test_operand_kind_refused :
    (⟨.add, 0, .none⟩ : RawInstr).check = none ∧ (⟨.asr, 0, .none⟩ : RawInstr).check = none ∧
    (⟨.push, 0, .reg 1⟩ : RawInstr).check = none ∧ (⟨.pop, 0, .imm 1⟩ : RawInstr).check = none := by decide

/-- 00_scope.md R5: sizes that are odd, too small, too large. -/
theorem test_ram_size_refused :
    ¬ Config.legalRamSize 257 ∧ ¬ Config.legalRamSize 0 ∧ ¬ Config.legalRamSize 65538 ∧ Config.legalRamSize 2 := by decide

/-- Memories that are not canonical: out of order, an address twice, a cell that reads as unlisted. -/
theorem test_memory_form_refused :
    ¬ Memory.wf [(2, 1#8), (1, 1#8)] ∧ ¬ Memory.wf [(1, 1#8), (1, 2#8)] ∧ ¬ Memory.wf [(1, 0#8)] ∧
    Memory.wf [(1, 1#8), (2, 1#8)] := by decide

/-! ## Decoding: a word of each constructor, its bits written out from 30_encoding.md R53 to R58 -/

theorem test_decode_addR : decode 0b1100_0001_0000_0010#16 = .ok (.addR 1 2) := by decide
theorem test_decode_addI : decode 0b1100_0000_1000_0001#16 = .ok (.addI 0 1) := by decide
theorem test_decode_mulR : decode 0b0111_0001_0000_0010#16 = .ok (.mulR 1 2) := by decide
theorem test_decode_mulI : decode 0b0111_0001_1100_0000#16 = .ok (.mulI 1 0x40) := by decide
theorem test_decode_xorR : decode 0b0101_0001_0111_0010#16 = .ok (.xorR 1 2) := by decide
theorem test_decode_xorI : decode 0b0101_0001_1111_1111#16 = .ok (.xorI 1 0x7F) := by decide
theorem test_decode_lsrR : decode 0b1110_0001_0000_0010#16 = .ok (.lsrR 1 2) := by decide
theorem test_decode_lsrI : decode 0b1110_0001_1000_0100#16 = .ok (.lsrI 1 4) := by decide
theorem test_decode_asrR : decode 0b1110_0010_0001_0011#16 = .ok (.asrR 2 3) := by decide
theorem test_decode_asrI : decode 0b1110_0001_1001_0100#16 = .ok (.asrI 1 4) := by decide
theorem test_decode_rorR : decode 0b1110_0001_0010_0010#16 = .ok (.rorR 1 2) := by decide
theorem test_decode_rorI : decode 0b1110_0001_1010_0100#16 = .ok (.rorI 1 4) := by decide
theorem test_decode_lslR : decode 0b1110_0001_0100_0010#16 = .ok (.lslR 1 2) := by decide
theorem test_decode_lslI : decode 0b1110_0010_1100_0011#16 = .ok (.lslI 2 3) := by decide
theorem test_decode_aslR : decode 0b1110_0001_0101_0010#16 = .ok (.aslR 1 2) := by decide
theorem test_decode_aslI : decode 0b1110_0001_1101_0001#16 = .ok (.aslI 1 1) := by decide
theorem test_decode_rolR : decode 0b1110_0001_0110_0010#16 = .ok (.rolR 1 2) := by decide
theorem test_decode_rolI : decode 0b1110_0001_1110_1111#16 = .ok (.rolI 1 15) := by decide
theorem test_decode_strR : decode 0b1101_0001_0011_0010#16 = .ok (.strR 1 2) := by decide
theorem test_decode_strI : decode 0b1101_0000_1100_0000#16 = .ok (.strI 0 0x40) := by decide
theorem test_decode_push : decode 0b1101_0011_0111_1111#16 = .ok (.push 3) := by decide
theorem test_decode_ldrR : decode 0b1011_0100_0000_0010#16 = .ok (.ldrR 4 2) := by decide
theorem test_decode_ldrI : decode 0b1011_0100_1000_0101#16 = .ok (.ldrI 4 5) := by decide
theorem test_decode_pop : decode 0b1011_0011_0100_1101#16 = .ok (.pop 3) := by decide

/-- 30_encoding.md R62: the all-zero and the all-one word; 44_shf.md R122: both invalid modes in both forms. -/
theorem test_decode_refuses_by_name :
    decode 0x0000#16 = .error .illegalOpcode ∧ decode 0xFFFF#16 = .error .illegalOpcode ∧
    decode 0xE130#16 = .error .illegalShiftMode ∧ decode 0xE270#16 = .error .illegalShiftMode ∧
    decode 0xE2B0#16 = .error .illegalShiftMode ∧ decode 0xE1FF#16 = .error .illegalShiftMode := by decide

/-- Canonical words of 95_test_vectors.md 1.1. -/
theorem test_canonicalize :
    canonicalize 0xC07F#16 = 0xC00F#16 ∧ canonicalize 0x7152#16 = 0x7102#16 ∧ canonicalize 0xD132#16 = 0xD102#16 ∧
    canonicalize 0xD37F#16 = 0xD340#16 ∧ canonicalize 0xB34D#16 = 0xB340#16 ∧ canonicalize 0xD0C0#16 = 0xD0C0#16 := by decide

/-- 20_memory.md R37: the table's word reaches the decoder through its two bytes. -/
theorem test_decode_table_word :
    decodeTableWord 16 0xD1FD = some (.strI 1 0x7D) ∧ decodeTableWord 16 0x0000 = none := by decide

/-! ## Single steps -/

/-- A state in `RUN` with the word `w` at address `pc`, the registers and memory words given, the flags from `sr`. -/
def start (w : Word) (pc : Word) (regs : List (Reg × Word)) (mem : List (Nat × Word)) (sr : BitVec 4) (ram : Nat) : State :=
  let s := regs.foldl (fun s p => s.setReg p.1 p.2) (({ State.reset with ramSize := ram } : State).setReg Reg.pc pc)
  let m := mem.foldl (fun m p => Memory.writeWord m p.1 p.2) s.mem
  ({ s with mem := m, flags := ⟨sr.getLsbD 0, sr.getLsbD 1, sr.getLsbD 2, sr.getLsbD 3⟩ } : State).placeAtPc w

/-- What a step of `s` leaves: the register `r`, `x[15]`, `SR`. -/
def regAfter (s : State) (r : Reg) : Option (Word × Word × BitVec 4) :=
  match step s with
  | .next t => some (t.reg r, t.pc, t.flags.sr)
  | .fault _ => none
  | .refused _ => none

/-- What a step of `s` leaves: the word at `a`, the register `r`, `x[15]`. -/
def memAfter (s : State) (a : Nat) (r : Reg) : Option (Word × Word × Word) :=
  match step s with
  | .next t => some (Memory.readWord t.mem a, t.reg r, t.pc)
  | .fault _ => none
  | .refused _ => none

/-- What a step of `s` leaves: the run status, the register `r`, `x[15]`. -/
def statusAfter (s : State) (r : Reg) : Option (RunStatus × Word × Word) :=
  match step s with
  | .next t => some (t.status, t.reg r, t.pc)
  | .fault _ => none
  | .refused _ => none

theorem test_add_register_wraps_no_flag_A3 :
    regAfter (start 0xC102#16 0x0000#16 [(1, 0x8000#16), (2, 0x8000#16)] [] 0x0#4 65536) 1 = some (0x0000#16, 0x0002#16, 0x0#4) := by decide
theorem test_add_register_to_pc_backward_A9 :
    regAfter (start 0xCF01#16 0x0010#16 [(1, 0xFFFC#16)] [] 0x0#4 65536) 15 = some (0x000C#16, 0x000C#16, 0x0#4) := by decide
theorem test_add_immediate_unsigned_keeps_flags_A2 :
    regAfter (start 0xC0FF#16 0x0000#16 [(0, 0xFFFF#16)] [] 0xF#4 65536) 0 = some (0x007E#16, 0x0002#16, 0xF#4) := by decide
theorem test_add_advance_wraps_A12 :
    regAfter (start 0xC280#16 0xFFFE#16 [(2, 0x1234#16)] [] 0x0#4 65536) 2 = some (0x1234#16, 0x0000#16, 0x0#4) := by decide
theorem test_mul_register_low_half_keeps_flags_M5 :
    regAfter (start 0x7102#16 0x0000#16 [(1, 0x1234#16), (2, 0x5678#16)] [] 0xA#4 65536) 1 = some (0x0060#16, 0x0002#16, 0xA#4) := by decide
theorem test_mul_register_squares_M7 :
    regAfter (start 0x7404#16 0x0000#16 [(4, 0x0100#16)] [] 0x0#4 65536) 4 = some (0x0000#16, 0x0002#16, 0x0#4) := by decide
theorem test_mul_immediate_signed_M3 :
    regAfter (start 0x71C0#16 0x0000#16 [(1, 0x0003#16)] [] 0x0#4 65536) 1 = some (0xFF40#16, 0x0002#16, 0x0#4) := by decide
theorem test_mul_immediate_redirects_M9 :
    regAfter (start 0x7F82#16 0x0008#16 [] [] 0x0#4 65536) 15 = some (0x0010#16, 0x0010#16, 0x0#4) := by decide
theorem test_xor_register_clears_X1 :
    regAfter (start 0x5000#16 0x0000#16 [(0, 0xABCD#16)] [] 0xC#4 65536) 0 = some (0x0000#16, 0x0002#16, 0x1#4) := by decide
theorem test_xor_register_to_pc_X9 :
    regAfter (start 0x5F0F#16 0x0010#16 [] [] 0x0#4 65536) 15 = some (0x0000#16, 0x0000#16, 0x1#4) := by decide
theorem test_xor_immediate_signed_X4 :
    regAfter (start 0x51C0#16 0x0000#16 [] [] 0x0#4 65536) 1 = some (0xFFC0#16, 0x0002#16, 0x2#4) := by decide
theorem test_xor_immediate_redirects_X8 :
    regAfter (start 0x5F86#16 0x0010#16 [] [] 0x0#4 65536) 15 = some (0x0016#16, 0x0016#16, 0x0#4) := by decide
theorem test_lsr_register_amount_not_masked_S7 :
    regAfter (start 0xE102#16 0x0000#16 [(1, 0xFFFF#16), (2, 0x8003#16)] [] 0x0#4 65536) 1 = some (0x0000#16, 0x0002#16, 0x1#4) := by decide
theorem test_lsr_register_by_pc_S36 :
    regAfter (start 0xE10F#16 0x0004#16 [(1, 0x0100#16)] [] 0x0#4 65536) 1 = some (0x0010#16, 0x0006#16, 0x0#4) := by decide
theorem test_lsr_immediate_last_bit_out_S4 :
    regAfter (start 0xE18F#16 0x0000#16 [(1, 0xC000#16)] [] 0x0#4 65536) 1 = some (0x0001#16, 0x0002#16, 0xC#4) := by decide
theorem test_lsr_immediate_zero_S5 :
    regAfter (start 0xE180#16 0x0000#16 [(1, 0x8001#16)] [] 0x9#4 65536) 1 = some (0x8001#16, 0x0002#16, 0x6#4) := by decide
theorem test_asr_register_saturates_to_zero_S14 :
    regAfter (start 0xE112#16 0x0000#16 [(1, 0x8000#16), (2, 0x0010#16)] [] 0x0#4 65536) 1 = some (0x0000#16, 0x0002#16, 0x1#4) := by decide
theorem test_asr_immediate_fills_sign_S12 :
    regAfter (start 0xE19F#16 0x0000#16 [(1, 0x8001#16)] [] 0x0#4 65536) 1 = some (0xFFFF#16, 0x0002#16, 0x6#4) := by decide
theorem test_asr_immediate_carry_S10 :
    regAfter (start 0xE191#16 0x0000#16 [(1, 0x8001#16)] [] 0x0#4 65536) 1 = some (0xC000#16, 0x0002#16, 0xA#4) := by decide
theorem test_ror_register_16_is_zero_S19 :
    regAfter (start 0xE122#16 0x0000#16 [(1, 0x8001#16), (2, 0x0010#16)] [] 0x0#4 65536) 1 = some (0x0000#16, 0x0002#16, 0x1#4) := by decide
theorem test_ror_register_swaps_bytes_S20 :
    regAfter (start 0xE122#16 0x0000#16 [(1, 0x1234#16), (2, 0x0008#16)] [] 0x0#4 65536) 1 = some (0x3412#16, 0x0002#16, 0x0#4) := by decide
theorem test_ror_immediate_overflow_is_negative_S16 :
    regAfter (start 0xE1A1#16 0x0000#16 [(1, 0x8001#16)] [] 0x0#4 65536) 1 = some (0xC000#16, 0x0002#16, 0x6#4) := by decide
theorem test_lsl_register_16_is_zero_S26 :
    regAfter (start 0xE142#16 0x0000#16 [(1, 0x0001#16), (2, 0x0010#16)] [] 0x0#4 65536) 1 = some (0x0000#16, 0x0002#16, 0x1#4) := by decide
theorem test_lsl_immediate_zero_with_carry_S25 :
    regAfter (start 0xE1CF#16 0x0000#16 [(1, 0x0002#16)] [] 0x0#4 65536) 1 = some (0x0000#16, 0x0002#16, 0xD#4) := by decide
theorem test_lsl_immediate_redirects_S35 :
    regAfter (start 0xEFC1#16 0x0008#16 [] [] 0x0#4 65536) 15 = some (0x0010#16, 0x0010#16, 0x0#4) := by decide
theorem test_asl_register_255_is_zero_S29 :
    regAfter (start 0xE152#16 0x0000#16 [(1, 0xFFFF#16), (2, 0x00FF#16)] [] 0x0#4 65536) 1 = some (0x0000#16, 0x0002#16, 0x1#4) := by decide
theorem test_asl_immediate_overflow_S28 :
    regAfter (start 0xE1D4#16 0x0000#16 [(1, 0x0FFF#16)] [] 0x0#4 65536) 1 = some (0xFFF0#16, 0x0002#16, 0x6#4) := by decide
theorem test_rol_register_17_is_zero_S34 :
    regAfter (start 0xE162#16 0x0000#16 [(1, 0x8001#16), (2, 0x0011#16)] [] 0x0#4 65536) 1 = some (0x0000#16, 0x0002#16, 0x1#4) := by decide
theorem test_rol_immediate_is_ror_1_S32 :
    regAfter (start 0xE1EF#16 0x0000#16 [(1, 0x8001#16)] [] 0x0#4 65536) 1 = some (0xC000#16, 0x0002#16, 0x6#4) := by decide
theorem test_str_register_stores_own_address_T4 :
    memAfter (start 0xDF02#16 0x0020#16 [(2, 0x0100#16)] [] 0x0#4 65536) 0x0100 2 = some (0x0020#16, 0x0100#16, 0x0022#16) := by decide
theorem test_str_register_odd_before_out_of_bounds_T14 :
    statusAfter (start 0xD102#16 0x0000#16 [(1, 0x0001#16), (2, 0x0101#16)] [] 0x0#4 256) 2 = some (.fault (.misalignedAccess 0x0000#16 0x0101#16 .store), 0x0101#16, 0x0000#16) := by decide
theorem test_str_immediate_bit_6_is_sign_T9 :
    memAfter (start 0xD1C0#16 0x0100#16 [(1, 0x2222#16)] [] 0x0#4 65536) 0x0082 1 = some (0x2222#16, 0x2222#16, 0x0102#16) := by decide
theorem test_str_immediate_address_wraps_T10 :
    memAfter (start 0xD1FD#16 0x0000#16 [(1, 0x3333#16)] [] 0x0#4 65536) 0xFFFC 1 = some (0x3333#16, 0x3333#16, 0x0002#16) := by decide
theorem test_push_sr_stores_old_pointer_T17 :
    memAfter (start 0xDD40#16 0x0000#16 [(13, 0x0100#16)] [] 0x0#4 65536) 0x00FE 13 = some (0x0100#16, 0x00FE#16, 0x0002#16) := by decide
theorem test_push_with_reset_pointer_T20 :
    statusAfter (start 0xD340#16 0x0000#16 [(3, 0x1234#16)] [] 0x0#4 256) 13 = some (.fault (.outOfBoundsAccess 0x0000#16 0xFFFE#16 .store), 0x0000#16, 0x0000#16) := by decide
theorem test_ldr_register_reads_address_first_L2 :
    regAfter (start 0xB404#16 0x0000#16 [(4, 0x0100#16)] [(0x0100, 0xCAFE#16)] 0x0#4 65536) 4 = some (0xCAFE#16, 0x0002#16, 0x0#4) := by decide
theorem test_ldr_register_out_of_bounds_L10 :
    statusAfter (start 0xB402#16 0x0000#16 [(2, 0x0100#16), (4, 0x7777#16)] [] 0x0#4 256) 4 = some (.fault (.outOfBoundsAccess 0x0000#16 0x0100#16 .load), 0x7777#16, 0x0000#16) := by decide
theorem test_ldr_immediate_negative_L5 :
    regAfter (start 0xB4C0#16 0x0100#16 [] [(0x0082, 0x5A5A#16)] 0x0#4 65536) 4 = some (0x5A5A#16, 0x0102#16, 0x0#4) := by decide
theorem test_ldr_immediate_out_of_bounds_L11 :
    statusAfter (start 0xB4BF#16 0x00F0#16 [(4, 0x7777#16)] [] 0x0#4 256) 4 = some (.fault (.outOfBoundsAccess 0x00F0#16 0x0170#16 .load), 0x7777#16, 0x00F0#16) := by decide
theorem test_pop_sr_loads_and_advances_L15 :
    regAfter (start 0xBD40#16 0x0000#16 [(13, 0x00FE#16)] [(0x00FE, 0x0200#16)] 0x0#4 65536) 13 = some (0x0202#16, 0x0002#16, 0x0#4) := by decide
theorem test_pop_pc_returns_L16 :
    regAfter (start 0xBF40#16 0x0020#16 [(13, 0x00FE#16)] [(0x00FE, 0x0040#16)] 0x0#4 65536) 13 = some (0x0100#16, 0x0040#16, 0x0#4) := by decide
theorem test_illegal_opcode_F1 :
    statusAfter (start 0x0000#16 0x0006#16 [] [] 0x3#4 65536) 0 = some (.fault (.illegalOpcode 0x0006#16 0x0000#16), 0x0000#16, 0x0006#16) := by decide
theorem test_illegal_shift_mode_S37 :
    statusAfter (start 0xE2B0#16 0x0006#16 [(2, 0x1234#16)] [] 0x5#4 65536) 2 = some (.fault (.illegalShiftMode 0x0006#16 0xE2B0#16), 0x1234#16, 0x0006#16) := by decide
theorem test_fetch_odd_before_out_of_bounds_F8 :
    statusAfter (start 0x0000#16 0x0101#16 [] [] 0x0#4 256) 0 = some (.fault (.misalignedAccess 0x0101#16 0x0101#16 .fetch), 0x0000#16, 0x0101#16) := by decide
theorem test_fetch_out_of_bounds_F7 :
    statusAfter (start 0x0000#16 0x0100#16 [] [] 0x0#4 256) 0 = some (.fault (.outOfBoundsAccess 0x0100#16 0x0100#16 .fetch), 0x0000#16, 0x0100#16) := by decide

/-- 95_test_vectors.md Z3, through the host's interface: the first instruction after reset. -/
theorem test_first_instruction_after_reset_Z3 :
    regAfter (State.reset.withFetchWord 16 0xC081) 0 = some (0x0001#16, 0x0002#16, 0x0#4) := by decide

/-- Reset loads an image and leaves FAULT (70_reset_and_hazards.md R165, R166). -/
theorem test_reset_loads_image :
    (({ State.reset with ramSize := 6, status := .fault (.illegalOpcode 0 0) } : State).resetTo
      (imageOf [0xC081#16, 0x5000#16] (fun _ => 0x1200#16))) =
    { State.reset with ramSize := 6, mem := [(0, 0x81#8), (1, 0xC0#8), (3, 0x50#8), (5, 0x12#8)] } := by decide

/-! ## The text form -/

/-- 30_encoding.md R71, the source's example. -/
theorem test_tokenize_example :
    tokenize "  mul  r1 , 0x05 ; comment".toList = ["mul".toList, "r1".toList, ",".toList, "0x05".toList] := by decide

/-- 30_encoding.md R72, R75, the source's three errors. -/
theorem test_error_discrimination :
    readInstr [] 0 (tokenize "mul r1".toList) = .error .missingOps ∧
    readInstr [] 0 (tokenize "mul r1, r2, r3".toList) = .error .extraOps ∧
    readInstr [] 0 (tokenize "mul r16, r0".toList) = .error .invalidOp := by decide

/-- 30_encoding.md R76, the source's example, its label on a line of its own (log 24). -/
theorem test_label_example :
    assemble "loop:\nxor r0, r0\nadd r0, 0x01\nstr r1, &loop".toList =
      [.ok 0x5000#16, .ok 0xC081#16, .ok 0xD1FD#16] := by decide

/-- 30_encoding.md R77. -/
theorem test_disassemble :
    disassemble (.addI 0 1) = "add r0, 0x0001".toList ∧ disassemble (.strI 1 0x7D) = "str r1, &0x007d".toList ∧
    disassemble (.pop 13) = "pop r13".toList := by decide

/-! ## States that meet the hypotheses of the statements -/

/-- `RAM_SIZE` 256, program counter at its last word, `x[2]` the first address past it, `x[3]` odd, `x[13]` one word of stack. -/
def small : State :=
  start 0xCF80#16 0x00FE#16 [(1, 0x00FE#16), (2, 0x0100#16), (3, 0x00FF#16), (13, 0x0100#16)] [] 0x0#4 256

/-- `small` with another value of one register. -/
def smallWith (r : Reg) (v : Word) : State := small.setReg r v

theorem witness_OpcodeNibbleChoosesFamily :
    (0x0000#16).toNat / 4096 ∈ [0, 1, 2, 3, 4, 6, 8, 9, 10, 15] ∧ (0xFFFF#16).toNat / 4096 ∈ [0, 1, 2, 3, 4, 6, 8, 9, 10, 15] ∧
    (0x4FFF#16).toNat / 4096 ∈ [0, 1, 2, 3, 4, 6, 8, 9, 10, 15] ∧ (0x6000#16).toNat / 4096 ∈ [0, 1, 2, 3, 4, 6, 8, 9, 10, 15] ∧
    (0x5000#16).toNat / 4096 = 5 ∧ (0x5FFF#16).toNat / 4096 = 5 ∧ (0x7000#16).toNat / 4096 = 7 ∧ (0x7FFF#16).toNat / 4096 = 7 ∧
    (0xB000#16).toNat / 4096 = 11 ∧ (0xBFFF#16).toNat / 4096 = 11 ∧ (0xC000#16).toNat / 4096 = 12 ∧
    (0xCFFF#16).toNat / 4096 = 12 ∧ (0xD000#16).toNat / 4096 = 13 ∧ (0xDFFF#16).toNat / 4096 = 13 ∧
    (0xE000#16).toNat / 4096 = 14 ∧ (0xEFFF#16).toNat / 4096 = 14 := by decide

theorem witness_EncodeOfDecodeIsCanonical : decode 0xC07F#16 = .ok (.addR 0 15) := by decide

theorem witness_DontCareBitsAreIgnored :
    0b0101#4 ∈ [0b1100#4, 0b0111#4, 0b0101#4] ∧ 0b1011#4 ∈ [0b1101#4, 0b1011#4] := by decide

theorem witness_DecoderFollowsOpcodeTable :
    decode 0xD37F#16 = .ok (.push 3) ∧ rowOf (.push 3) ∈ opcodeTable ∧ inRow (rowOf (.push 3)) 0xD37F#16 := by decide

theorem witness_ImmediatesExtendAsStated : (63#7).toNat < 64 ∧ 64 ≤ (64#7).toNat := by decide

theorem witness_CauseCodesAreNumbered : small.status = .run := by decide

theorem witness_MemReadAnswersWordOrFault :
    (0x00FF#16).toNat % 2 = 1 ∧ (0x0101#16).toNat % 2 = 1 ∧ (0x0100#16).toNat % 2 = 0 ∧ small.ramSize ≤ (0x0100#16).toNat ∧
    (0x00FE#16).toNat % 2 = 0 ∧ (0x00FE#16).toNat < small.ramSize := by decide

theorem witness_MemWriteReplacesOneWord :
    (0x00FF#16).toNat % 2 = 1 ∧ (0x0100#16).toNat % 2 = 0 ∧ small.ramSize ≤ (0x0100#16).toNat ∧
    (0x00FE#16).toNat % 2 = 0 ∧ (0x00FE#16).toNat < small.ramSize := by decide

theorem witness_StoreIsSeenByEveryLaterRead :
    small.memWrite 0x0010#16 0xBEEF#16 = .ok { small with mem := Memory.writeWord small.mem 16 0xBEEF#16 } ∧
    0x0012#16 ≠ 0x0010#16 := by decide

theorem witness_PcRelativeAddressFormula : (small.reg 15).toNat % 2 = 0 := by decide

theorem witness_ShiftOpMeansItsArithmetic : 16 ≤ 16 ∧ 1 ≤ 1 ∧ 1 ≤ 15 ∧ 15 ≤ 15 := by decide

theorem witness_ShiftEquivalences : 1 ≤ 15 ∧ 15 ≤ 15 ∧ (0x7FFF#16).getLsbD 15 = false := by decide

theorem witness_ShiftFlagsAndTheirConsequences :
    (Instr.rorR 1 2 = shiftR .ror 1 2 ∧ 256 = (small.reg 2).toNat ∧ 16 ≤ 256) ∧
    (Instr.rolI 1 0 = shiftI .rol 1 0 ∧ 0 = (0#4).toNat) ∧ (16 = ((smallWith 2 16#16).reg 2).toNat) := by decide

theorem witness_StrRegisterStoresOneWord :
    small.accessible (small.eaReg 1) ∧ (small.eaReg 3).toNat % 2 = 1 ∧
    (small.eaReg 2).toNat % 2 = 0 ∧ small.ramSize ≤ (small.eaReg 2).toNat := by decide

theorem witness_StrImmediateStoresOneWord :
    small.accessible (small.eaPcRel 0x7F#7) ∧ ((smallWith 15 0x0001#16).eaPcRel 0#7).toNat % 2 = 1 ∧
    (small.eaPcRel 0x00#7).toNat % 2 = 0 ∧ small.ramSize ≤ (small.eaPcRel 0x00#7).toNat := by decide

theorem witness_PushStoresBelowStackPointer :
    small.accessible small.eaPush ∧ (smallWith 13 0x0101#16).eaPush.toNat % 2 = 1 ∧
    (smallWith 13 0x0102#16).eaPush.toNat % 2 = 0 ∧ small.ramSize ≤ (smallWith 13 0x0102#16).eaPush.toNat := by decide

theorem witness_LdrRegisterLoadsOneWord :
    small.accessible (small.eaReg 1) ∧ (small.eaReg 3).toNat % 2 = 1 ∧
    (small.eaReg 2).toNat % 2 = 0 ∧ small.ramSize ≤ (small.eaReg 2).toNat := by decide

theorem witness_LdrImmediateLoadsOneWord :
    small.accessible (small.eaPcRel 0x7F#7) ∧ ((smallWith 15 0x0001#16).eaPcRel 0#7).toNat % 2 = 1 ∧
    (small.eaPcRel 0x00#7).toNat % 2 = 0 ∧ small.ramSize ≤ (small.eaPcRel 0x00#7).toNat := by decide

theorem witness_PopLoadsAndAdvances :
    (smallWith 13 0x00FE#16).accessible (smallWith 13 0x00FE#16).eaPop ∧ (smallWith 13 0x00FF#16).eaPop.toNat % 2 = 1 ∧
    small.eaPop.toNat % 2 = 0 ∧ small.ramSize ≤ small.eaPop.toNat ∧ (3 : Reg) ≠ 13 := by decide

theorem witness_PopUndoesPush : small.accessible small.eaPush ∧ (4 : Reg) ≠ 13 := by decide

theorem witness_OnlyDestinationsChange : exec (.addI 1 2#7) small = .next (small.setReg 1 0x0100#16) := rfl

theorem witness_OnlyXorAndShiftsWriteFlags :
    exec (.addI 1 2#7) small = .next (small.setReg 1 0x0100#16) ∧ writesFlags (.addI 1 2#7) = false := ⟨rfl, rfl⟩

theorem witness_OnlyTheStoredWordChanges :
    exec (.strR 2 1) small = .next { small with mem := Memory.writeWord small.mem 0xFE 0x0100#16 } ∧
    ∀ ea, dataAccess small (.strR 2 1) = some (.store, ea) → 0xFD ≠ ea.toNat ∧ 0xFD ≠ ea.toNat + 1 :=
  ⟨rfl, by rintro _ ⟨⟩; decide⟩

theorem witness_DataFaultsAreExactlyBadAccesses : small.status = .run := by decide

theorem witness_RedirectIffProgramCounterIsWritten :
    exec (.addI 1 2#7) small = .next (small.setReg 1 0x0100#16) ∧ redirects (.addI 1 2#7) = false := ⟨rfl, rfl⟩

/-- A redirecting instruction; one in sequence and one that takes a fault are the next two. -/
theorem witness_StepRunsDecodedInstruction :
    small.status = .run ∧ small.accessible small.pc ∧
    decodeBytes (Memory.read small.mem small.pc.toNat) (Memory.read small.mem (small.pc.toNat + 1)) = .ok (.addI 15 0) ∧
    exec (.addI 15 0) small = .next small ∧ redirects (.addI 15 0) = true := by
  refine ⟨by decide, by decide, by decide, ?_, rfl⟩
  rfl

theorem witness_StepRunsDecodedInstruction_sequence :
    let s := small.placeAtPc 0xC182#16
    s.status = .run ∧ s.accessible s.pc ∧
    decodeBytes (Memory.read s.mem s.pc.toNat) (Memory.read s.mem (s.pc.toNat + 1)) = .ok (.addI 1 2) ∧
    exec (.addI 1 2) s = .next (s.setReg 1 0x0100#16) ∧ redirects (.addI 1 2) = false :=
  ⟨by decide, by decide, by decide, rfl, rfl⟩

theorem witness_StepRunsDecodedInstruction_fault :
    let s := small.placeAtPc 0xB402#16
    s.status = .run ∧ s.accessible s.pc ∧
    decodeBytes (Memory.read s.mem s.pc.toNat) (Memory.read s.mem (s.pc.toNat + 1)) = .ok (.ldrR 4 2) ∧
    exec (.ldrR 4 2) s = .next (s.faulted (.outOfBoundsAccess 0x00FE#16 0x0100#16 .load)) :=
  ⟨by decide, by decide, by decide, rfl⟩

theorem witness_FetchAndDecodeFaultsInOrder :
    (smallWith 15 0x0101#16).pc.toNat % 2 = 1 ∧ (smallWith 15 0x0100#16).pc.toNat % 2 = 0 ∧
    small.ramSize ≤ (smallWith 15 0x0100#16).pc.toNat ∧ (smallWith 15 0#16).accessible (smallWith 15 0#16).pc ∧
    decode (Memory.readWord small.mem 0) = .error .illegalOpcode ∧
    decode (Memory.readWord (small.placeAtPc 0xE030#16).mem 0xFE) = .error .illegalShiftMode := by decide

theorem witness_FaultsArePrecise :
    step (smallWith 15 0#16) = .next ((smallWith 15 0#16).faulted (.illegalOpcode 0#16 0#16)) := rfl

theorem witness_FaultedMachineStandsForever :
    (small.faulted (.illegalOpcode 0x00FE#16 0#16)).status = .fault (.illegalOpcode 0x00FE#16 0#16) := rfl

theorem witness_RamIsNeverResized : step small = .next small := rfl

theorem witness_AddZeroToPcRepeatsForever :
    small.status = .run ∧ small.accessible small.pc ∧ Memory.readWord small.mem small.pc.toNat = 0xCF80#16 := by decide

theorem witness_StepKeepsInvariant : small.Inv ∧ step small = .next small :=
  ⟨⟨by decide, by decide, by decide, nofun⟩, rfl⟩

/-- The invariant of a machine in FAULT, where its last clause speaks. -/
theorem witness_StepKeepsInvariant_fault :
    let t := (smallWith 15 0#16).faulted (.illegalOpcode 0#16 0#16)
    t.Inv ∧ step t = .next t :=
  ⟨⟨by decide, by decide, by decide, by rintro _ ⟨⟩; exact ⟨by decide, by decide, by decide, by decide⟩⟩, rfl⟩

theorem witness_ResetLeavesStatedValues : Config.legalRamSize small.ramSize ∧ 254 % 2 = 0 ∧ 254 < small.ramSize := by decide

theorem witness_PlacedWordIsFetched : small.accessible small.pc := by decide

theorem witness_LabelFieldReachesItsLine :
    labelField? 0x7F 0x40 = some 0x40 ∧ small.reg 15 = BitVec.ofNat 16 (2 * 0x7F) ∧ labelField? 0x7F 0xBF = some 0x3F := by decide

end Sys2Proof.Machine.Tests
end

section
/-! The extensions of a 7-bit field as arithmetic (00_scope.md R6, 30_encoding.md R57). -/

namespace Sys2Proof.Machine

/-! ## Extension of immediates -/

@[simp] theorem toNat_zext7 (f : BitVec 7) : (zext7 f).toNat = f.toNat :=
  BitVec.toNat_setWidth_of_le (by decide)

/-- The nine bits above the field weigh 65536 - 128 together; `sext_7` sets them exactly when bit 6 of the field is set. -/
theorem toNat_sext7 (f : BitVec 7) : (sext7 f).toNat = f.toNat + if 64 ≤ f.toNat then 65536 - 128 else 0 := by
  have hsign : f.msb = decide (64 ≤ f.toNat) := BitVec.msb_eq_decide f
  have hfield : (f.setWidth 16).toNat = f.toNat := toNat_zext7 f
  rw [sext7, BitVec.toNat_signExtend, hfield, hsign]
  simp only [decide_eq_true_eq, Nat.reducePow]

theorem toNat_sext7_of_lt {f : BitVec 7} (h : f.toNat < 64) : (sext7 f).toNat = f.toNat := by
  rw [toNat_sext7, if_neg (by omega), Nat.add_zero]

theorem toNat_sext7_of_le {f : BitVec 7} (h : 64 ≤ f.toNat) : (sext7 f).toNat = f.toNat + 65536 - 128 := by
  rw [toNat_sext7, if_pos h]
  omega

/-- Settles O9: the value of each extension, for `sext_7` on either side of its sign bit. -/
theorem immediatesExtendAsStated : Obligations.ImmediatesExtendAsStated := fun f =>
  ⟨toNat_zext7 f, toNat_sext7_of_lt, toNat_sext7_of_le⟩

end Sys2Proof.Machine
end

section
/-! What an instruction can do, said once: the fault of its data access, or its completed state. -/

namespace Sys2Proof.Machine

/-! ## The data access of an instruction -/

/-- The fault of the one data access of an instruction, none where it has no access or performs it. -/
def State.dataFault (s : State) (i : Instr) : Option Cause :=
  (dataAccess s i).bind fun access => s.accessFault access.1 access.2

/-- The data access of an instruction is never a fetch (20_memory.md R38). -/
theorem dataAccess_kind_ne_fetch {s : State} {i : Instr} {k : AccessKind} {ea : Word}
    (h : dataAccess s i = some (k, ea)) : k ≠ .fetch := by
  cases i with
  | strR _ _ | strI _ _ | push _ | ldrR _ _ | ldrI _ _ | pop _ => cases h; nofun
  | addR _ _ | addI _ _ | mulR _ _ | mulI _ _ | xorR _ _ | xorI _ _
  | lsrR _ _ | lsrI _ _ | asrR _ _ | asrI _ _ | rorR _ _ | rorI _ _
  | lslR _ _ | lslI _ _ | aslR _ _ | aslI _ _ | rolR _ _ | rolI _ _ => nomatch h

theorem State.dataFault_eq_some {s : State} {i : Instr} {c : Cause} :
    s.dataFault i = some c ↔ ∃ k ea, dataAccess s i = some (k, ea) ∧ s.accessFault k ea = some c := by
  simp [State.dataFault, Option.bind_eq_some_iff]

theorem State.accessFault_of_dataFault_none {s : State} {i : Instr} {k : AccessKind} {ea : Word}
    (hfault : s.dataFault i = none) (haccess : dataAccess s i = some (k, ea)) : s.accessFault k ea = none := by
  simpa [State.dataFault, haccess] using hfault

theorem State.accessFault_eq_none {s : State} {k : AccessKind} {ea : Word} :
    s.accessFault k ea = none ↔ s.accessible ea := by
  refine ⟨fun h => ?_, fun ⟨heven, hbound⟩ => State.accessFault_none heven hbound⟩
  rcases s.accessFault_cases k ea with ⟨_, hodd⟩ | ⟨_, _, hout⟩ | ⟨heven, hbound, _⟩
  · exact nomatch hodd.symm.trans h
  · exact nomatch hout.symm.trans h
  · exact ⟨heven, hbound⟩

/-! ## The completed state -/

/-- The state an instruction leaves where its data access, if it has one, is performed. -/
def State.completed (s : State) : Instr → State
  | .addR rd rm => s.combine addWord rd (.reg rm)
  | .addI rd imm7 => s.combine addWord rd (.imm (zext7 imm7))
  | .mulR rd rm => s.combine mulWord rd (.reg rm)
  | .mulI rd imm7 => s.combine mulWord rd (.imm (sext7 imm7))
  | .xorR rd rm => s.combineXor rd (.reg rm)
  | .xorI rd imm7 => s.combineXor rd (.imm (sext7 imm7))
  | .lsrR rd rm => s.shiftBy .lsr rd (s.reg rm).toNat
  | .lsrI rd imm4 => s.shiftBy .lsr rd imm4.toNat
  | .asrR rd rm => s.shiftBy .asr rd (s.reg rm).toNat
  | .asrI rd imm4 => s.shiftBy .asr rd imm4.toNat
  | .rorR rd rm => s.shiftBy .ror rd (s.reg rm).toNat
  | .rorI rd imm4 => s.shiftBy .ror rd imm4.toNat
  | .lslR rd rm => s.shiftBy .lsl rd (s.reg rm).toNat
  | .lslI rd imm4 => s.shiftBy .lsl rd imm4.toNat
  | .aslR rd rm => s.shiftBy .asl rd (s.reg rm).toNat
  | .aslI rd imm4 => s.shiftBy .asl rd imm4.toNat
  | .rolR rd rm => s.shiftBy .rol rd (s.reg rm).toNat
  | .rolI rd imm4 => s.shiftBy .rol rd imm4.toNat
  | .strR rd rm => { s with mem := Memory.writeWord s.mem (s.eaReg rm).toNat (s.reg rd) }
  | .strI rd imm7 => { s with mem := Memory.writeWord s.mem (s.eaPcRel imm7).toNat (s.reg rd) }
  | .push rd =>
    ({ s with mem := Memory.writeWord s.mem s.eaPush.toNat (s.reg rd) } : State).setReg Reg.sp s.eaPush
  | .ldrR rd rm => s.setReg rd (Memory.readWord s.mem (s.eaReg rm).toNat)
  | .ldrI rd imm7 => s.setReg rd (Memory.readWord s.mem (s.eaPcRel imm7).toNat)
  | .pop rd => (s.setReg rd (Memory.readWord s.mem s.eaPop.toNat)).advanceSp

/-- Every instruction takes the fault of its data access, or completes. -/
theorem exec_eq (i : Instr) (s : State) :
    exec i s = .next ((s.dataFault i).elim (s.completed i) s.raiseFault) := by
  cases i with
  | strR _ _ | strI _ _ =>
    refine (State.storeAt_eq ..).trans ?_
    split <;> simp [State.dataFault, dataAccess, State.completed, *]
  | push _ =>
    refine (execPush_eq ..).trans ?_
    split <;> simp [State.dataFault, dataAccess, State.completed, *]
  | ldrR _ _ | ldrI _ _ =>
    refine (State.loadFrom_eq ..).trans ?_
    split <;> simp [State.dataFault, dataAccess, State.completed, *]
  | pop _ =>
    refine (execPop_eq ..).trans ?_
    split <;> simp [State.dataFault, dataAccess, State.completed, *]
  | addR _ _ | addI _ _ | mulR _ _ | mulI _ _ | xorR _ _ | xorI _ _
  | lsrR _ _ | lsrI _ _ | asrR _ _ | asrI _ _ | rorR _ _ | rorI _ _
  | lslR _ _ | lslI _ _ | aslR _ _ | aslI _ _ | rolR _ _ | rolI _ _ => rfl

/-- What `exec` answers, as a case distinction. -/
theorem exec_cases {i : Instr} {s t : State} (h : exec i s = .next t) :
    (∃ c, s.dataFault i = some c ∧ t = s.raiseFault c) ∨ (s.dataFault i = none ∧ t = s.completed i) := by
  rw [exec_eq] at h
  injection h with ht
  subst ht
  cases hfault : s.dataFault i with
  | some c => exact .inl ⟨c, rfl, rfl⟩
  | none => exact .inr ⟨rfl, rfl⟩

/-! ## What a completed instruction keeps -/

@[simp] theorem State.completed_status (s : State) (i : Instr) : (s.completed i).status = s.status := by
  cases i <;> rfl

@[simp] theorem State.completed_ramSize (s : State) (i : Instr) : (s.completed i).ramSize = s.ramSize := by
  cases i <;> rfl

/-- The write table of 10_state.md R12, read from the other side. -/
theorem State.completed_reg_of_not_mem {s : State} {i : Instr} {r : Reg} (h : r ∉ destinations i) :
    (s.completed i).reg r = s.reg r := by
  cases i with
  | addR _ _ | addI _ _ | mulR _ _ | mulI _ _ | xorR _ _ | xorI _ _
  | lsrR _ _ | lsrI _ _ | asrR _ _ | asrI _ _ | rorR _ _ | rorI _ _
  | lslR _ _ | lslI _ _ | aslR _ _ | aslI _ _ | rolR _ _ | rolI _ _
  | push _ | ldrR _ _ | ldrI _ _ => exact State.reg_setReg_of_ne (List.ne_of_not_mem_cons h)
  | strR _ _ | strI _ _ => rfl
  | pop rd =>
    have hsp : r ≠ Reg.sp := List.ne_of_not_mem_cons (List.not_mem_of_not_mem_cons h)
    exact (State.reg_setReg_of_ne hsp).trans (State.reg_setReg_of_ne (List.ne_of_not_mem_cons h))

/-- 10_state.md R17: XOR and the shifts alone write the flags. -/
theorem State.completed_flags {s : State} {i : Instr} (h : writesFlags i = false) :
    (s.completed i).flags = s.flags := by
  cases i with
  | xorR _ _ | xorI _ _ | lsrR _ _ | lsrI _ _ | asrR _ _ | asrI _ _ | rorR _ _ | rorI _ _
  | lslR _ _ | lslI _ _ | aslR _ _ | aslI _ _ | rolR _ _ | rolI _ _ => nomatch h
  | addR _ _ | addI _ _ | mulR _ _ | mulI _ _ | strR _ _ | strI _ _ | push _ | ldrR _ _ | ldrI _ _ | pop _ => rfl

/-- 20_memory.md R38: memory is kept, or the one word of a store is written. -/
theorem State.completed_mem_cases (s : State) (i : Instr) :
    (s.completed i).mem = s.mem ∨
    ∃ ea v, dataAccess s i = some (.store, ea) ∧ (s.completed i).mem = Memory.writeWord s.mem ea.toNat v := by
  cases i with
  | strR _ _ | strI _ _ | push _ => exact .inr ⟨_, _, rfl, rfl⟩
  | addR _ _ | addI _ _ | mulR _ _ | mulI _ _ | xorR _ _ | xorI _ _
  | lsrR _ _ | lsrI _ _ | asrR _ _ | asrI _ _ | rorR _ _ | rorI _ _
  | lslR _ _ | lslI _ _ | aslR _ _ | aslI _ _ | rolR _ _ | rolI _ _
  | ldrR _ _ | ldrI _ _ | pop _ => exact .inl rfl

/-- 10_state.md R18: other flags in the starting state reach the completed state untouched, or are overwritten. -/
theorem State.completed_setFlags (s : State) (f : Flags) (i : Instr) :
    (s.setFlags f).completed i = (s.completed i).setFlags (if writesFlags i then (s.completed i).flags else f) := by
  cases i <;> rfl

/-! ## Statements about every instruction -/

/-- Settles O33: a fault writes no register, a completed instruction only its destinations. -/
theorem onlyDestinationsChange : Obligations.OnlyDestinationsChange := by
  intro i s t h r hr
  rcases exec_cases h with ⟨c, _, rfl⟩ | ⟨_, rfl⟩
  · exact s.raiseFault_reg r c
  · exact State.completed_reg_of_not_mem hr

/-- Settles O34: a fault writes no flag, and a completed instruction only where `writesFlags` says so. -/
theorem onlyXorAndShiftsWriteFlags : Obligations.OnlyXorAndShiftsWriteFlags := by
  intro i s t h hflags
  rcases exec_cases h with ⟨c, _, rfl⟩ | ⟨_, rfl⟩
  · exact s.raiseFault_flags c
  · exact State.completed_flags hflags

end Sys2Proof.Machine
end

section
/-! What a step can do, said once: nothing, take a fault of one of its phases, or complete an instruction. -/

namespace Sys2Proof.Machine

/-! ## The three outcomes of a step -/

/-- The instruction a step in `RUN` completes, or the first fault of fetch, decode and data access, in that order
(60_exceptions.md R148). -/
def State.instrOrFault (s : State) : Except Cause Instr :=
  s.fetchInstr.bind fun i => (s.dataFault i).elim (.ok i) .error

/-- The state after a step that completes the instruction `i` (40_instruction_cycle.md R80, R87). -/
def State.afterInstr (s : State) (i : Instr) : State :=
  if redirects i then s.completed i else (s.completed i).setReg Reg.pc (nextPc s.pc)

theorem State.instrOrFault_eq_error {s : State} {c : Cause} :
    s.instrOrFault = .error c ↔ s.fetchInstr = .error c ∨ ∃ i, s.fetchInstr = .ok i ∧ s.dataFault i = some c := by
  unfold State.instrOrFault
  cases s.fetchInstr with
  | error d => simp [Except.bind]
  | ok i => cases hfault : s.dataFault i <;> simp [Except.bind, hfault]

theorem State.instrOrFault_eq_ok {s : State} {i : Instr} :
    s.instrOrFault = .ok i ↔ s.fetchInstr = .ok i ∧ s.dataFault i = none := by
  unfold State.instrOrFault
  cases s.fetchInstr with
  | error d => simp [Except.bind]
  | ok j =>
    simp only [Except.bind, Except.ok.injEq]
    refine ⟨fun h => ?_, fun ⟨hij, hdata⟩ => by rw [hij, hdata]; rfl⟩
    cases hdata : s.dataFault j <;> rw [hdata] at h <;> cases h
    exact ⟨rfl, hdata⟩

theorem step_of_instrOrFault_error {s : State} {c : Cause} (hrun : s.status = .run)
    (h : s.instrOrFault = .error c) : step s = .next (s.raiseFault c) := by
  rcases State.instrOrFault_eq_error.1 h with hfetch | ⟨i, hfetch, hdata⟩
  · exact step_of_error hrun hfetch
  · rw [step_of_instr hrun hfetch, exec_eq, hdata]
    exact congrArg _ (advancePc_fault rfl)

theorem step_of_instrOrFault_ok {s : State} {i : Instr} (hrun : s.status = .run)
    (h : s.instrOrFault = .ok i) : step s = .next (s.afterInstr i) := by
  obtain ⟨hfetch, hdata⟩ := State.instrOrFault_eq_ok.1 h
  rw [step_of_instr hrun hfetch, exec_eq, hdata]
  exact congrArg _ (advancePc_run ((s.completed_status i).trans hrun))

/-- Every step of every state is one of three. -/
theorem step_cases (s : State) :
    (∃ c, s.status = .fault c ∧ step s = .next s) ∨
    (∃ c, s.status = .run ∧ s.instrOrFault = .error c ∧ step s = .next (s.raiseFault c)) ∨
    (∃ i, s.status = .run ∧ s.instrOrFault = .ok i ∧ step s = .next (s.afterInstr i)) := by
  cases hstatus : s.status with
  | fault c => exact .inl ⟨c, rfl, step_of_fault hstatus⟩
  | run =>
    cases h : s.instrOrFault with
    | error c => exact .inr (.inl ⟨c, rfl, rfl, step_of_instrOrFault_error hstatus h⟩)
    | ok i => exact .inr (.inr ⟨i, rfl, rfl, step_of_instrOrFault_ok hstatus h⟩)

/-! ## The state after a completed instruction -/

@[simp] theorem State.afterInstr_flags (s : State) (i : Instr) : (s.afterInstr i).flags = (s.completed i).flags := by
  unfold State.afterInstr; split <;> rfl

@[simp] theorem State.afterInstr_mem (s : State) (i : Instr) : (s.afterInstr i).mem = (s.completed i).mem := by
  unfold State.afterInstr; split <;> rfl

@[simp] theorem State.afterInstr_status (s : State) (i : Instr) : (s.afterInstr i).status = s.status := by
  unfold State.afterInstr; split <;> exact s.completed_status i

@[simp] theorem State.afterInstr_ramSize (s : State) (i : Instr) : (s.afterInstr i).ramSize = s.ramSize := by
  unfold State.afterInstr; split <;> exact s.completed_ramSize i

/-! ## The flags take no part in a step (10_state.md R18) -/

@[simp] theorem State.instrOrFault_setFlags (s : State) (f : Flags) :
    (s.setFlags f).instrOrFault = s.instrOrFault := by
  have hdata (i : Instr) : (s.setFlags f).dataFault i = s.dataFault i := by cases i <;> rfl
  simp only [State.instrOrFault, hdata]
  rfl

theorem State.afterInstr_setFlags (s : State) (f : Flags) (i : Instr) :
    (s.setFlags f).afterInstr i =
      (s.afterInstr i).setFlags (if writesFlags i then (s.afterInstr i).flags else f) := by
  rw [State.afterInstr_flags]
  unfold State.afterInstr
  rw [State.completed_setFlags]
  split <;> rfl

/-- Settles O38: both steps are of the same kind, and what a completed instruction leaves differs at most in flags it has not
written. -/
theorem flagsNeverInfluenceAStep : Obligations.FlagsNeverInfluenceAStep := by
  intro s f
  rcases step_cases s with ⟨c, hstatus, hstep⟩ | ⟨c, hstatus, hfault, hstep⟩ | ⟨i, hstatus, hinstr, hstep⟩
  · exact ⟨s, s.setFlags f, hstep, step_of_fault hstatus, rfl, rfl, rfl, rfl, .inr ⟨rfl, rfl⟩⟩
  · have hstep' : step (s.setFlags f) = .next ((s.setFlags f).raiseFault c) :=
      step_of_instrOrFault_error hstatus ((s.instrOrFault_setFlags f).trans hfault)
    exact ⟨_, _, hstep, hstep', rfl, rfl, rfl, rfl, .inr ⟨rfl, rfl⟩⟩
  · have hstep' : step (s.setFlags f) = .next ((s.setFlags f).afterInstr i) :=
      step_of_instrOrFault_ok hstatus ((s.instrOrFault_setFlags f).trans hinstr)
    rw [State.afterInstr_setFlags] at hstep'
    refine ⟨_, _, hstep, hstep', rfl, rfl, rfl, rfl, ?_⟩
    cases hflags : writesFlags i with
    | true => exact .inl rfl
    | false => exact .inr ⟨(s.afterInstr_flags i).trans (State.completed_flags hflags), rfl⟩

/-! ## Faults are final, and the RAM keeps its size -/

theorem run_succ_of_step {M : Host.Core} {s t : M.State} (n : Nat) (h : M.step s = .next t) :
    M.run (n + 1) s = M.run n t := by
  simp only [Host.Core.run, h]

/-- Settles O42, by induction on the number of steps. -/
theorem faultedMachineStandsForever : Obligations.FaultedMachineStandsForever := by
  intro n s c hstatus
  induction n with
  | zero => rfl
  | succ n ih =>
    exact (run_succ_of_step (M := core) n (step_of_fault hstatus)).trans ih

theorem step_ramSize {s t : State} (h : step s = .next t) : t.ramSize = s.ramSize := by
  rcases step_cases s with ⟨c, _, hstep⟩ | ⟨c, _, _, hstep⟩ | ⟨i, _, _, hstep⟩ <;>
    cases hstep.symm.trans h
  · rfl
  · exact s.raiseFault_ramSize c
  · exact s.afterInstr_ramSize i

/-- Settles O44: no outcome of a step writes the field, and a reset copies it. -/
theorem ramIsNeverResized : Obligations.RamIsNeverResized :=
  ⟨fun _ _ => step_ramSize, fun _ _ => rfl⟩

end Sys2Proof.Machine
end

section
/-! The invariant of the state: every fault a step takes is true of the machine it freezes, and a completed instruction keeps
memory canonical and within the RAM. -/

namespace Sys2Proof.Machine

/-! ## A fault that is taken is true (60_exceptions.md R142 to R147) -/

/-- A cause speaks of registers, memory and `RAM_SIZE` only, which taking a fault keeps. -/
theorem Cause.trueOf_raiseFault (s : State) (c d : Cause) : d.trueOf (s.raiseFault c) ↔ d.trueOf s := by
  cases d <;> rfl

/-- The fault of an access is true, if a fetch is at the program counter. -/
theorem State.accessFault_trueOf {s : State} {k : AccessKind} {a : Word} {c : Cause}
    (h : s.accessFault k a = some c) (hfetch : k = .fetch → a = s.pc) : c.trueOf s := by
  rcases s.accessFault_cases k a with ⟨hodd, hc⟩ | ⟨heven, hout, hc⟩ | ⟨_, _, hc⟩ <;>
    cases hc.symm.trans h
  · exact ⟨rfl, hodd, hfetch⟩
  · exact ⟨rfl, heven, hout, hfetch⟩

theorem State.memRead_error {s : State} {k : AccessKind} {a : Word} {c : Cause} (h : s.memRead k a = .error c) :
    s.accessFault k a = some c := by
  rw [State.memRead_eq] at h
  cases hfault : s.accessFault k a <;> rw [hfault] at h <;> cases h
  rfl

theorem State.memRead_ok {s : State} {k : AccessKind} {a w : Word} (h : s.memRead k a = .ok w) :
    s.accessible a ∧ w = Memory.readWord s.mem a.toNat := by
  rw [State.memRead_eq] at h
  cases hfault : s.accessFault k a <;> rw [hfault] at h <;> cases h
  exact ⟨State.accessFault_eq_none.1 hfault, rfl⟩

/-- The fault of decoding the word at the program counter is true. -/
theorem State.decodeAt_trueOf {s : State} {w : Word} {c : Cause} (hpc : s.accessible s.pc)
    (hw : w = Memory.readWord s.mem s.pc.toNat) (h : s.decodeAt w = .error c) : c.trueOf s := by
  unfold State.decodeAt at h
  cases hdecode : decode w with
  | ok i => rw [hdecode] at h; cases h
  | error e =>
    rw [hdecode] at h
    cases h
    cases e with
    | illegalOpcode => exact ⟨rfl, hpc, hw, hdecode⟩
    | illegalShiftMode => exact ⟨rfl, hpc, hw, hdecode⟩

theorem State.fetchInstr_trueOf {s : State} {c : Cause} (h : s.fetchInstr = .error c) : c.trueOf s := by
  unfold State.fetchInstr at h
  cases hfetch : s.fetch with
  | error d =>
    rw [hfetch] at h
    cases h
    exact State.accessFault_trueOf (State.memRead_error hfetch) fun _ => rfl
  | ok w =>
    rw [hfetch] at h
    obtain ⟨hpc, hw⟩ := State.memRead_ok hfetch
    exact State.decodeAt_trueOf hpc hw h

theorem State.dataFault_trueOf {s : State} {i : Instr} {c : Cause} (h : s.dataFault i = some c) : c.trueOf s := by
  obtain ⟨k, ea, haccess, hfault⟩ := State.dataFault_eq_some.1 h
  exact State.accessFault_trueOf hfault fun hk => absurd hk (dataAccess_kind_ne_fetch haccess)

/-- Whatever phase of the step meets it, the fault is true of the state of the start of the step. -/
theorem State.instrOrFault_trueOf {s : State} {c : Cause} (h : s.instrOrFault = .error c) : c.trueOf s := by
  rcases State.instrOrFault_eq_error.1 h with hfetch | ⟨i, _, hdata⟩
  · exact State.fetchInstr_trueOf hfetch
  · exact State.dataFault_trueOf hdata

/-! ## The invariant -/

theorem State.raiseFault_inv {s : State} {c : Cause} (hinv : s.Inv) (hc : c.trueOf s) : (s.raiseFault c).Inv := by
  obtain ⟨hsize, hwf, hbound, _⟩ := hinv
  refine ⟨hsize, hwf, hbound, fun d hd => ?_⟩
  cases hd
  exact (Cause.trueOf_raiseFault s c c).2 hc

/-- The odd byte of an accessible word lies in the RAM too, since `RAM_SIZE` is even. -/
theorem State.accessible_succ_lt {s : State} {ea : Word} (hsize : Config.legalRamSize s.ramSize)
    (h : s.accessible ea) : ea.toNat + 1 < s.ramSize := by
  obtain ⟨heven, _, _⟩ := hsize
  obtain ⟨hea, hlt⟩ := h
  omega

/-- Memory stays canonical and within the RAM where an instruction completes. -/
theorem State.completed_mem_wf_bounded {s : State} {i : Instr} (hinv : s.Inv) (hdata : s.dataFault i = none) :
    Memory.wf (s.completed i).mem ∧ ∀ c ∈ (s.completed i).mem, c.1 < s.ramSize := by
  obtain ⟨hsize, hwf, hbound, _⟩ := hinv
  rcases s.completed_mem_cases i with hmem | ⟨ea, v, haccess, hmem⟩ <;> rw [hmem]
  · exact ⟨hwf, hbound⟩
  · have hea : s.accessible ea :=
      State.accessFault_eq_none.1 (State.accessFault_of_dataFault_none hdata haccess)
    exact ⟨Memory.writeWord_wf hwf, Memory.writeWord_bounded (State.accessible_succ_lt hsize hea) hbound⟩

theorem State.afterInstr_inv {s : State} {i : Instr} (hinv : s.Inv) (hrun : s.status = .run)
    (hdata : s.dataFault i = none) : (s.afterInstr i).Inv := by
  obtain ⟨hwf, hbound⟩ := State.completed_mem_wf_bounded hinv hdata
  obtain ⟨hsize, _⟩ := hinv
  unfold State.Inv State.faultTrue
  rw [s.afterInstr_mem, s.afterInstr_ramSize, s.afterInstr_status, hrun]
  exact ⟨hsize, hwf, hbound, nofun⟩

/-- Settles O46, by the three outcomes of a step. -/
theorem stepKeepsInvariant : Obligations.StepKeepsInvariant := by
  intro s t hinv h
  rcases step_cases s with ⟨c, _, hstep⟩ | ⟨c, _, hfault, hstep⟩ | ⟨i, hrun, hinstr, hstep⟩ <;>
    cases hstep.symm.trans h
  · exact hinv
  · exact State.raiseFault_inv hinv (State.instrOrFault_trueOf hfault)
  · exact State.afterInstr_inv hinv hrun (State.instrOrFault_eq_ok.1 hinstr).2

/-- Settles O47: memory lists nothing and the status is `RUN`. -/
theorem invariantHoldsAtReset : Obligations.InvariantHoldsAtReset :=
  ⟨by decide, Memory.reset_wf, nofun, nofun⟩

end Sys2Proof.Machine
end

section
/-! Single registers, the layout of `SR`, and the state after reset (10_state.md R10, R16, R23). -/

namespace Sys2Proof.Machine

/-- Settles O10: the read-after-write law of the register file. -/
theorem registersHoldWhatIsWritten : Obligations.RegistersHoldWhatIsWritten := fun s r q v =>
  s.reg_setReg r q v

/-- 10_state.md R16: the four flags are the four binary digits of `SR`. -/
theorem Flags.toNat_sr (f : Flags) :
    f.sr.toNat = f.z.toNat + 2 * f.n.toNat + 4 * f.v.toNat + 8 * f.c.toNat := by
  obtain ⟨z, n, v, c⟩ := f
  revert z n v c
  decide

theorem Flags.toNat_srWord (f : Flags) : f.srWord.toNat = f.sr.toNat :=
  BitVec.toNat_setWidth_of_le (by decide)

/-- Settles O11: the digits of `SR`, which widening to a word keeps. -/
theorem statusRegisterLayout : Obligations.StatusRegisterLayout := fun f => ⟨f.toNat_sr, f.toNat_srWord⟩

/-! ## The reset to an all-zero image -/

@[simp] theorem Memory.prepend_blank (a : Nat) (m : Memory) : Memory.prepend a Config.blankByte m = m :=
  if_pos rfl

/-- Zero words below any word index list no cell. -/
theorem Memory.ofWordsBefore_zero (n : Nat) (m : Memory) : Memory.ofWordsBefore (fun _ => 0#16) n m = m := by
  have hlo : loByte 0#16 = Config.blankByte := by decide
  have hhi : hiByte 0#16 = Config.blankByte := by decide
  induction n with
  | zero => rfl
  | succ n ih => rw [Memory.ofWordsBefore, hlo, hhi, Memory.prepend_blank, Memory.prepend_blank, ih]

theorem Memory.ofWords_zero (size : Nat) : Memory.ofWords (fun _ => 0#16) size = [] :=
  Memory.ofWordsBefore_zero (size / 2) []

/-- Settles O49: the image lists no cell, and a reset sets everything else but `RAM_SIZE` whatever it was. -/
theorem resetStateIsZeroImageReset : Obligations.ResetStateIsZeroImageReset := by
  unfold Obligations.ResetStateIsZeroImageReset State.resetTo
  rw [Memory.ofWords_zero]
  rfl

end Sys2Proof.Machine
end

section
/-! Reads and writes of memory: what each answers, what a store leaves for later reads, and what an instruction may change
(20_memory.md R32 to R45). -/

namespace Sys2Proof.Machine

/-! ## Words at even addresses -/

/-- Two even addresses that differ name words without a common byte. -/
theorem Memory.readWord_writeWord_of_ne {m : Memory} {a b : Nat} {w : Word} (ha : a % 2 = 0) (hb : b % 2 = 0)
    (hne : b ≠ a) : Memory.readWord (Memory.writeWord m a w) b = Memory.readWord m b :=
  Memory.readWord_writeWord_of_disjoint (by omega)

theorem Memory.read_writeWord_of_ne {m : Memory} {a b : Nat} {w : Word} (hlo : b ≠ a) (hhi : b ≠ a + 1) :
    Memory.read (Memory.writeWord m a w) b = Memory.read m b := by
  rw [Memory.read_writeWord, if_neg hhi, if_neg hlo]

/-! ## What an access answers -/

theorem State.memRead_of_fault {s : State} {k : AccessKind} {a : Word} {c : Cause} (h : s.accessFault k a = some c) :
    s.memRead k a = .error c := by
  rw [State.memRead_eq, h]

theorem State.memRead_of_accessible {s : State} {a : Word} (h : s.accessible a) (k : AccessKind) :
    s.memRead k a = .ok (Memory.readWord s.mem a.toNat) := by
  rw [State.memRead_eq, State.accessFault_eq_none.2 h]

theorem State.memWrite_of_fault {s : State} {a : Word} {c : Cause} (h : s.accessFault .store a = some c) (v : Word) :
    s.memWrite a v = .error c := by
  rw [State.memWrite_eq, h]

theorem State.memWrite_of_accessible {s : State} {a : Word} (h : s.accessible a) (v : Word) :
    s.memWrite a v = .ok { s with mem := Memory.writeWord s.mem a.toNat v } := by
  rw [State.memWrite_eq, State.accessFault_eq_none.2 h]

/-- A write that succeeds was at an accessible address, and replaced the word there. -/
theorem State.memWrite_ok {s t : State} {a v : Word} (h : s.memWrite a v = .ok t) :
    s.accessible a ∧ t = { s with mem := Memory.writeWord s.mem a.toNat v } := by
  cases hfault : s.accessFault .store a with
  | some c => exact nomatch (State.memWrite_of_fault hfault v).symm.trans h
  | none =>
    have ha : s.accessible a := State.accessFault_eq_none.1 hfault
    cases (State.memWrite_of_accessible ha v).symm.trans h
    exact ⟨ha, rfl⟩

/-- The contents of memory play no part in whether an access is performed. -/
@[simp] theorem State.accessFault_with_mem (s : State) (m : Memory) (k : AccessKind) (a : Word) :
    ({ s with mem := m } : State).accessFault k a = s.accessFault k a := rfl

/-! ## A read after a write -/

theorem State.memRead_writeWord_self {s : State} {a : Word} (h : s.accessible a) (k : AccessKind) (v : Word) :
    ({ s with mem := Memory.writeWord s.mem a.toNat v } : State).memRead k a = .ok v := by
  rw [State.memRead_eq, State.accessFault_with_mem, State.accessFault_eq_none.2 h]
  exact congrArg _ (Memory.readWord_writeWord_self ..)

/-- A read of another address faults as it did; if it is performed, that address is even as `a` is, so its word is kept. -/
theorem State.memRead_writeWord_of_ne {s : State} {a b : Word} (h : s.accessible a) (hne : b ≠ a) (k : AccessKind)
    (v : Word) :
    ({ s with mem := Memory.writeWord s.mem a.toNat v } : State).memRead k b = s.memRead k b := by
  rw [State.memRead_eq, State.memRead_eq, State.accessFault_with_mem]
  obtain ⟨ha, _⟩ := h
  cases hfault : s.accessFault k b with
  | some c => rfl
  | none =>
    obtain ⟨hb, _⟩ := State.accessFault_eq_none.1 hfault
    exact congrArg _ (Memory.readWord_writeWord_of_ne ha hb (mt BitVec.eq_of_toNat_eq hne))

/-! ## The statements -/

/-- Settles O14: the three cases of an access. -/
theorem memReadAnswersWordOrFault : Obligations.MemReadAnswersWordOrFault := fun _ k _ =>
  ⟨fun hodd => State.memRead_of_fault (State.accessFault_odd hodd),
    fun heven hout => State.memRead_of_fault (State.accessFault_out heven hout),
    fun heven hbound => State.memRead_of_accessible ⟨heven, hbound⟩ k⟩

/-- Settles O15: the two faults of an access, and the frame of the one word written. -/
theorem memWriteReplacesOneWord : Obligations.MemWriteReplacesOneWord := by
  intro s a v
  refine ⟨fun hodd => State.memWrite_of_fault (State.accessFault_odd hodd) v,
    fun heven hout => State.memWrite_of_fault (State.accessFault_out heven hout) v,
    fun heven hbound => ⟨_, State.memWrite_of_accessible ⟨heven, hbound⟩ v, ?_⟩⟩
  have hword : Memory.readWord (Memory.writeWord s.mem a.toNat v) a.toNat = v := Memory.readWord_writeWord_self ..
  have hothers (b : Nat) (hb : b % 2 = 0) (hne : b ≠ a.toNat) :
      Memory.readWord (Memory.writeWord s.mem a.toNat v) b = Memory.readWord s.mem b :=
    Memory.readWord_writeWord_of_ne heven hb hne
  exact ⟨hword, hothers, fun _ _ => rfl, rfl, rfl, rfl⟩

/-- Settles O16: a store that succeeds replaced one word at an accessible address. -/
theorem storeIsSeenByEveryLaterRead : Obligations.StoreIsSeenByEveryLaterRead := by
  intro s t ea v h k
  obtain ⟨hea, rfl⟩ := State.memWrite_ok h
  exact ⟨State.memRead_writeWord_self hea k v, fun _ hne => State.memRead_writeWord_of_ne hea hne k v⟩

/-- Settles O35: a fault writes no byte, and a completed instruction at most the two of the word it stores. -/
theorem onlyTheStoredWordChanges : Obligations.OnlyTheStoredWordChanges := by
  intro i s t h a ha
  rcases exec_cases h with ⟨c, _, rfl⟩ | ⟨_, rfl⟩
  · rfl
  · rcases s.completed_mem_cases i with hmem | ⟨ea, v, haccess, hmem⟩
    · rw [hmem]
    · obtain ⟨hlo, hhi⟩ := ha ea haccess
      rw [hmem, Memory.read_writeWord_of_ne hlo hhi]

/-! ## A word placed at the program counter -/

/-- A word given by its 16 bits is placed as it is. -/
theorem State.withFetchWord_toNat (s : State) (w : Word) : s.withFetchWord 16 w.toNat = s.placeAtPc w := by
  have hw : BitVec.ofNat 16 (w.toNat % 2 ^ 16) = w := by
    rw [Nat.mod_eq_of_lt w.isLt, BitVec.ofNat_toNat, BitVec.setWidth_eq]
  rw [State.withFetchWord, hw]

/-- Settles O50: placing a word is a store at the program counter, and a fetch is a read there. -/
theorem placedWordIsFetched : Obligations.PlacedWordIsFetched := by
  intro s w hpc
  rw [State.withFetchWord_toNat]
  exact State.memRead_writeWord_self hpc .fetch w

end Sys2Proof.Machine
end

section
/-! A word as its five fields (30_encoding.md R51, R52): what each field function reads and what a mask keeps. -/

namespace Sys2Proof

/-! ## Bits and numbers -/

/-- Appending is arithmetic: the low part does not reach the high one. -/
theorem toNat_append_eq_add {m n : Nat} (x : BitVec m) (y : BitVec n) : (x ++ y).toNat = x.toNat * 2 ^ n + y.toNat := by
  rw [BitVec.toNat_append, ← Nat.shiftLeft_add_eq_or_of_lt y.isLt, Nat.shiftLeft_eq]

theorem extractLsb'_eq_of_toNat {n len : Nat} {w : BitVec n} {start : Nat} {x : BitVec len}
    (h : w.toNat / 2 ^ start % 2 ^ len = x.toNat) : w.extractLsb' start len = x :=
  BitVec.eq_of_toNat_eq (by rw [BitVec.extractLsb'_toNat, Nat.shiftRight_eq_div_pow, h])

theorem getLsbD_eq_decide {n : Nat} (w : BitVec n) (i : Nat) : w.getLsbD i = decide (w.toNat / 2 ^ i % 2 = 1) := by
  rw [BitVec.getLsbD, Nat.testBit_eq_decide_div_mod_eq]

@[simp] theorem toFin_regBits (r : Reg) : (regBits r).toFin = r := by
  ext
  simp [regBits]

@[simp] theorem regBits_toFin (x : BitVec 4) : regBits x.toFin = x := by
  simp [regBits]

/-! ## Words from fields -/

/-- The word of the fields `op`, `rd`, `s`, `t` and the low four bits, which hold `rm` or `imm4`. -/
def ofFields (op rd : BitVec 4) (s : Bool) (t : BitVec 3) (low : BitVec 4) : Word :=
  op ++ rd ++ BitVec.ofBool s ++ t ++ low

section
variable (op rd : BitVec 4) (s : Bool) (t : BitVec 3) (low : BitVec 4)

theorem toNat_ofFields : (ofFields op rd s t low).toNat =
    4096 * op.toNat + 256 * rd.toNat + 128 * s.toNat + 16 * t.toNat + low.toNat := by
  simp only [ofFields, toNat_append_eq_add, BitVec.toNat_ofBool]
  omega

@[simp] theorem fieldOp_ofFields : fieldOp (ofFields op rd s t low) = op := by
  have hs := s.toNat_lt
  exact extractLsb'_eq_of_toNat (by rw [toNat_ofFields]; omega)

@[simp] theorem fieldRd_ofFields : fieldRd (ofFields op rd s t low) = rd.toFin := by
  have hs := s.toNat_lt
  exact congrArg BitVec.toFin (extractLsb'_eq_of_toNat (by rw [toNat_ofFields]; omega))

@[simp] theorem fieldS_ofFields : fieldS (ofFields op rd s t low) = s := by
  rw [fieldS, getLsbD_eq_decide, toNat_ofFields]
  cases s <;> simp <;> omega

@[simp] theorem fieldMode_ofFields : fieldMode (ofFields op rd s t low) = t :=
  extractLsb'_eq_of_toNat (by rw [toNat_ofFields]; omega)

@[simp] theorem fieldStack_ofFields : fieldStack (ofFields op rd s t low) = t[2] := by
  rw [fieldStack, ← BitVec.getLsbD_eq_getElem, getLsbD_eq_decide, getLsbD_eq_decide, toNat_ofFields, decide_eq_decide]
  omega

@[simp] theorem fieldRm_ofFields : fieldRm (ofFields op rd s t low) = low.toFin :=
  congrArg BitVec.toFin (extractLsb'_eq_of_toNat (by rw [toNat_ofFields]; omega))

@[simp] theorem fieldImm4_ofFields : fieldImm4 (ofFields op rd s t low) = low :=
  extractLsb'_eq_of_toNat (by rw [toNat_ofFields]; omega)

@[simp] theorem fieldImm7_ofFields : fieldImm7 (ofFields op rd s t low) = t ++ low :=
  extractLsb'_eq_of_toNat (by rw [toNat_ofFields, toNat_append_eq_add]; omega)

end

theorem exists_ofFields (w : Word) : ∃ op rd s t low, w = ofFields op rd s t low := by
  refine ⟨fieldOp w, w.extractLsb' 8 4, fieldS w, fieldMode w, fieldImm4 w, BitVec.eq_of_toNat_eq ?_⟩
  have hs : (fieldS w).toNat = w.toNat / 2 ^ 7 % 2 := Nat.toNat_testBit ..
  simp only [toNat_ofFields, hs, fieldOp, fieldMode, fieldImm4, BitVec.extractLsb'_toNat, Nat.shiftRight_eq_div_pow]
  omega

theorem ofFields_inj {op op' rd rd' : BitVec 4} {s s' : Bool} {t t' : BitVec 3} {low low' : BitVec 4} :
    ofFields op rd s t low = ofFields op' rd' s' t' low' ↔ op = op' ∧ rd = rd' ∧ s = s' ∧ t = t' ∧ low = low' := by
  refine ⟨fun h => ?_, fun ⟨hop, hrd, hs, ht, hlow⟩ => by rw [hop, hrd, hs, ht, hlow]⟩
  have hrd := congrArg fieldRd h
  rw [fieldRd_ofFields, fieldRd_ofFields] at hrd
  exact ⟨by simpa using congrArg fieldOp h, BitVec.toFin_injective hrd, by simpa using congrArg fieldS h,
    by simpa using congrArg fieldMode h, by simpa using congrArg fieldImm4 h⟩

/-! ## Masks -/

theorem ofFields_and (op op' rd rd' : BitVec 4) (s s' : Bool) (t t' : BitVec 3) (low low' : BitVec 4) :
    ofFields op rd s t low &&& ofFields op' rd' s' t' low' =
      ofFields (op &&& op') (rd &&& rd') (s && s') (t &&& t') (low &&& low') := by
  simp only [ofFields, ← BitVec.and_append, ← BitVec.ofBool_and_ofBool]

/-- A mask of `op`, `s` and the bits `m` of the mode field, as every row of the opcode table has one. -/
theorem and_rowMask_iff {w : Word} {op : BitVec 4} {s : Bool} {m t : BitVec 3} :
    w &&& ofFields 0xF#4 0#4 true m 0#4 = ofFields op 0#4 s t 0#4 ↔
      fieldOp w = op ∧ fieldS w = s ∧ fieldMode w &&& m = t := by
  obtain ⟨op', rd, s', t', low, rfl⟩ := exists_ofFields w
  have hop : op' &&& 0xF#4 = op' := BitVec.and_allOnes
  simp [ofFields_and, ofFields_inj, hop]

/-- The mask of the rows told by `op` and `s` alone. -/
theorem and_sourceMask_iff (w : Word) (op : BitVec 4) (s : Bool) :
    w &&& 0xF080#16 = ofFields op 0#4 s 0#3 0#4 ↔ fieldOp w = op ∧ fieldS w = s := by
  have hmask : 0xF080#16 = ofFields 0xF#4 0#4 true 0#3 0#4 := rfl
  rw [hmask, and_rowMask_iff, BitVec.and_zero, eq_self, and_true]

/-- The mask of the shift rows. -/
theorem and_modeMask_iff (w : Word) (op : BitVec 4) (s : Bool) (t : BitVec 3) :
    w &&& 0xF0F0#16 = ofFields op 0#4 s t 0#4 ↔ fieldOp w = op ∧ fieldS w = s ∧ fieldMode w = t := by
  have hmask : 0xF0F0#16 = ofFields 0xF#4 0#4 true 0b111#3 0#4 := rfl
  have hmode : fieldMode w &&& 0b111#3 = fieldMode w := BitVec.and_allOnes
  rw [hmask, and_rowMask_iff, hmode]

/-- The mask of the rows told by the Push or Pop selector. -/
theorem and_stackMask_iff (w : Word) (op : BitVec 4) (s stack : Bool) :
    w &&& 0xF0C0#16 = ofFields op 0#4 s (BitVec.ofBool stack ++ 0#2) 0#4 ↔
      fieldOp w = op ∧ fieldS w = s ∧ fieldStack w = stack := by
  have hmask : 0xF0C0#16 = ofFields 0xF#4 0#4 true 0b100#3 0#4 := rfl
  have htop (t : BitVec 3) : t &&& 0b100#3 = BitVec.ofBool stack ++ 0#2 ↔ t.getLsbD 2 = stack := by
    revert t stack
    decide
  have hstack : fieldStack w = (fieldMode w).getLsbD 2 := by
    simp [fieldStack, fieldMode]
  rw [hmask, and_rowMask_iff, htop, hstack]

/-! ## Formats -/

theorem formatAR_eq (op : BitVec 4) (rd rm : Reg) :
    formatAR op rd rm = ofFields op (regBits rd) false 0#3 (regBits rm) := rfl

theorem formatSR_eq (t : BitVec 3) (rd rm : Reg) :
    formatSR t rd rm = ofFields 0b1110#4 (regBits rd) false t (regBits rm) := rfl

theorem formatSI_eq (t : BitVec 3) (rd : Reg) (v : BitVec 4) :
    formatSI t rd v = ofFields 0b1110#4 (regBits rd) true t v := rfl

/-- `imm7` is the mode field and the low four bits together. -/
theorem formatI7_append (op : BitVec 4) (rd : Reg) (t : BitVec 3) (low : BitVec 4) :
    formatI7 op rd (t ++ low) = ofFields op (regBits rd) true t low := by
  apply BitVec.eq_of_toNat_eq
  simp only [formatI7, toNat_ofFields, toNat_append_eq_add, BitVec.toNat_ofNat, Bool.toNat_true]
  omega

theorem formatMR_eq (op : BitVec 4) (rd rm : Reg) :
    formatMR op rd rm = ofFields op (regBits rd) false 0#3 (regBits rm) := by
  apply BitVec.eq_of_toNat_eq
  simp only [formatMR, toNat_ofFields, toNat_append_eq_add, BitVec.toNat_ofNat, Bool.toNat_false]
  omega

theorem formatMP_eq (op : BitVec 4) (rd : Reg) :
    formatMP op rd = ofFields op (regBits rd) false 0b100#3 0#4 := by
  apply BitVec.eq_of_toNat_eq
  simp only [formatMP, toNat_ofFields, toNat_append_eq_add, BitVec.toNat_ofNat, Bool.toNat_false]
  omega

end Sys2Proof
end

section
/-! The decoder against the opcode table (30_encoding.md R58 to R61). -/

namespace Sys2Proof

/-! ## The maps of opcodes and modes -/

/-- The opcode nibble of a family (30_encoding.md R60). -/
def opcodeOf : Family → BitVec 4
  | .add => 0b1100#4
  | .mul => 0b0111#4
  | .xor => 0b0101#4
  | .shf => 0b1110#4
  | .strPush => 0b1101#4
  | .ldrPop => 0b1011#4

theorem familyOf_eq_some_iff {op : BitVec 4} {f : Family} : familyOf op = some f ↔ op = opcodeOf f := by
  revert op
  cases f <;> decide

/-- The mode of a shift (30_encoding.md R58). -/
def modeOf : ShiftKind → BitVec 3
  | .lsr => 0b000#3
  | .asr => 0b001#3
  | .ror => 0b010#3
  | .lsl => 0b100#3
  | .asl => 0b101#3
  | .rol => 0b110#3

theorem shiftKindOf_eq_some_iff {t : BitVec 3} {k : ShiftKind} : shiftKindOf t = some k ↔ t = modeOf k := by
  revert t
  cases k <;> decide

theorem decode_of_opcode {w : Word} {f : Family} (h : fieldOp w = opcodeOf f) : decode w = decodeFamily f w := by
  rw [decode, familyOf_eq_some_iff.2 h]

theorem decode_eq_ok_iff {w : Word} {i : Instr} :
    decode w = .ok i ↔ ∃ f, fieldOp w = opcodeOf f ∧ decodeFamily f w = .ok i := by
  cases hf : familyOf (fieldOp w) <;> simp [decode, hf, ← familyOf_eq_some_iff]

/-! ## The forms of an instruction -/

/-- An instruction of the same row, its operands the fields of a word. -/
def Instr.withOperandsOf (w : Word) : Instr → Instr
  | .addR _ _ => .addR (fieldRd w) (fieldRm w)
  | .addI _ _ => .addI (fieldRd w) (fieldImm7 w)
  | .mulR _ _ => .mulR (fieldRd w) (fieldRm w)
  | .mulI _ _ => .mulI (fieldRd w) (fieldImm7 w)
  | .xorR _ _ => .xorR (fieldRd w) (fieldRm w)
  | .xorI _ _ => .xorI (fieldRd w) (fieldImm7 w)
  | .lsrR _ _ => .lsrR (fieldRd w) (fieldRm w)
  | .lsrI _ _ => .lsrI (fieldRd w) (fieldImm4 w)
  | .asrR _ _ => .asrR (fieldRd w) (fieldRm w)
  | .asrI _ _ => .asrI (fieldRd w) (fieldImm4 w)
  | .rorR _ _ => .rorR (fieldRd w) (fieldRm w)
  | .rorI _ _ => .rorI (fieldRd w) (fieldImm4 w)
  | .lslR _ _ => .lslR (fieldRd w) (fieldRm w)
  | .lslI _ _ => .lslI (fieldRd w) (fieldImm4 w)
  | .aslR _ _ => .aslR (fieldRd w) (fieldRm w)
  | .aslI _ _ => .aslI (fieldRd w) (fieldImm4 w)
  | .rolR _ _ => .rolR (fieldRd w) (fieldRm w)
  | .rolI _ _ => .rolI (fieldRd w) (fieldImm4 w)
  | .strR _ _ => .strR (fieldRd w) (fieldRm w)
  | .strI _ _ => .strI (fieldRd w) (fieldImm7 w)
  | .push _ => .push (fieldRd w)
  | .ldrR _ _ => .ldrR (fieldRd w) (fieldRm w)
  | .ldrI _ _ => .ldrI (fieldRd w) (fieldImm7 w)
  | .pop _ => .pop (fieldRd w)

/-- Case analysis with the six shifts taken together. -/
theorem Instr.cases_by_form {P : Instr → Prop} (i : Instr)
    (addR : ∀ rd rm, P (.addR rd rm)) (addI : ∀ rd v, P (.addI rd v))
    (mulR : ∀ rd rm, P (.mulR rd rm)) (mulI : ∀ rd v, P (.mulI rd v))
    (xorR : ∀ rd rm, P (.xorR rd rm)) (xorI : ∀ rd v, P (.xorI rd v))
    (shiftR : ∀ k rd rm, P (shiftR k rd rm)) (shiftI : ∀ k rd v, P (shiftI k rd v))
    (strR : ∀ rd rm, P (.strR rd rm)) (strI : ∀ rd v, P (.strI rd v)) (push : ∀ rd, P (.push rd))
    (ldrR : ∀ rd rm, P (.ldrR rd rm)) (ldrI : ∀ rd v, P (.ldrI rd v)) (pop : ∀ rd, P (.pop rd)) : P i :=
  match i with
  | .addR rd rm => addR rd rm
  | .addI rd v => addI rd v
  | .mulR rd rm => mulR rd rm
  | .mulI rd v => mulI rd v
  | .xorR rd rm => xorR rd rm
  | .xorI rd v => xorI rd v
  | .lsrR rd rm => shiftR .lsr rd rm
  | .lsrI rd v => shiftI .lsr rd v
  | .asrR rd rm => shiftR .asr rd rm
  | .asrI rd v => shiftI .asr rd v
  | .rorR rd rm => shiftR .ror rd rm
  | .rorI rd v => shiftI .ror rd v
  | .lslR rd rm => shiftR .lsl rd rm
  | .lslI rd v => shiftI .lsl rd v
  | .aslR rd rm => shiftR .asl rd rm
  | .aslI rd v => shiftI .asl rd v
  | .rolR rd rm => shiftR .rol rd rm
  | .rolI rd v => shiftI .rol rd v
  | .strR rd rm => strR rd rm
  | .strI rd v => strI rd v
  | .push rd => push rd
  | .ldrR rd rm => ldrR rd rm
  | .ldrI rd v => ldrI rd v
  | .pop rd => pop rd

section
variable (k : ShiftKind) (rd : Reg)

@[simp] theorem withOperandsOf_shiftR (w : Word) (rm : Reg) :
    (shiftR k rd rm).withOperandsOf w = shiftR k (fieldRd w) (fieldRm w) := by
  cases k <;> rfl

@[simp] theorem withOperandsOf_shiftI (w : Word) (v : BitVec 4) :
    (shiftI k rd v).withOperandsOf w = shiftI k (fieldRd w) (fieldImm4 w) := by
  cases k <;> rfl

@[simp] theorem encode_shiftR (rm : Reg) : encode (shiftR k rd rm) = formatSR (modeOf k) rd rm := by
  cases k <;> rfl

@[simp] theorem encode_shiftI (v : BitVec 4) : encode (shiftI k rd v) = formatSI (modeOf k) rd v := by
  cases k <;> rfl

end

theorem rowOf_withOperandsOf (w : Word) (i : Instr) : rowOf (i.withOperandsOf w) = rowOf i := by
  cases i <;> rfl

/-- The raw form of every instruction passes the checks, and its row is in the opcode table. -/
theorem Instr.formed (i : Instr) : Laws.Formed.Statement i := by
  cases i with
  | addR rd rm => exact Laws.Formed.addR rd rm
  | addI rd v => exact Laws.Formed.addI rd v
  | mulR rd rm => exact Laws.Formed.mulR rd rm
  | mulI rd v => exact Laws.Formed.mulI rd v
  | xorR rd rm => exact Laws.Formed.xorR rd rm
  | xorI rd v => exact Laws.Formed.xorI rd v
  | lsrR rd rm => exact Laws.Formed.lsrR rd rm
  | lsrI rd v => exact Laws.Formed.lsrI rd v
  | asrR rd rm => exact Laws.Formed.asrR rd rm
  | asrI rd v => exact Laws.Formed.asrI rd v
  | rorR rd rm => exact Laws.Formed.rorR rd rm
  | rorI rd v => exact Laws.Formed.rorI rd v
  | lslR rd rm => exact Laws.Formed.lslR rd rm
  | lslI rd v => exact Laws.Formed.lslI rd v
  | aslR rd rm => exact Laws.Formed.aslR rd rm
  | aslI rd v => exact Laws.Formed.aslI rd v
  | rolR rd rm => exact Laws.Formed.rolR rd rm
  | rolI rd v => exact Laws.Formed.rolI rd v
  | strR rd rm => exact Laws.Formed.strR rd rm
  | strI rd v => exact Laws.Formed.strI rd v
  | push rd => exact Laws.Formed.push rd
  | ldrR rd rm => exact Laws.Formed.ldrR rd rm
  | ldrI rd v => exact Laws.Formed.ldrI rd v
  | pop rd => exact Laws.Formed.pop rd

/-! ## The words of a row -/

section
variable (w : Word) (rd rm : Reg) (v : BitVec 7)

@[simp] theorem inRow_addR_iff : inRow (rowOf (.addR rd rm)) w ↔ fieldOp w = opcodeOf .add ∧ fieldS w = false :=
  and_sourceMask_iff w (opcodeOf .add) false

@[simp] theorem inRow_addI_iff : inRow (rowOf (.addI rd v)) w ↔ fieldOp w = opcodeOf .add ∧ fieldS w = true :=
  and_sourceMask_iff w (opcodeOf .add) true

@[simp] theorem inRow_mulR_iff : inRow (rowOf (.mulR rd rm)) w ↔ fieldOp w = opcodeOf .mul ∧ fieldS w = false :=
  and_sourceMask_iff w (opcodeOf .mul) false

@[simp] theorem inRow_mulI_iff : inRow (rowOf (.mulI rd v)) w ↔ fieldOp w = opcodeOf .mul ∧ fieldS w = true :=
  and_sourceMask_iff w (opcodeOf .mul) true

@[simp] theorem inRow_xorR_iff : inRow (rowOf (.xorR rd rm)) w ↔ fieldOp w = opcodeOf .xor ∧ fieldS w = false :=
  and_sourceMask_iff w (opcodeOf .xor) false

@[simp] theorem inRow_xorI_iff : inRow (rowOf (.xorI rd v)) w ↔ fieldOp w = opcodeOf .xor ∧ fieldS w = true :=
  and_sourceMask_iff w (opcodeOf .xor) true

@[simp] theorem inRow_shiftR_iff (k : ShiftKind) : inRow (rowOf (shiftR k rd rm)) w ↔
    fieldOp w = opcodeOf .shf ∧ fieldS w = false ∧ fieldMode w = modeOf k := by
  have h := and_modeMask_iff w (opcodeOf .shf) false (modeOf k)
  cases k <;> exact h

@[simp] theorem inRow_shiftI_iff (k : ShiftKind) (v : BitVec 4) : inRow (rowOf (shiftI k rd v)) w ↔
    fieldOp w = opcodeOf .shf ∧ fieldS w = true ∧ fieldMode w = modeOf k := by
  have h := and_modeMask_iff w (opcodeOf .shf) true (modeOf k)
  cases k <;> exact h

@[simp] theorem inRow_strR_iff : inRow (rowOf (.strR rd rm)) w ↔
    fieldOp w = opcodeOf .strPush ∧ fieldS w = false ∧ fieldStack w = false :=
  and_stackMask_iff w (opcodeOf .strPush) false false

@[simp] theorem inRow_strI_iff : inRow (rowOf (.strI rd v)) w ↔ fieldOp w = opcodeOf .strPush ∧ fieldS w = true :=
  and_sourceMask_iff w (opcodeOf .strPush) true

@[simp] theorem inRow_push_iff : inRow (rowOf (.push rd)) w ↔
    fieldOp w = opcodeOf .strPush ∧ fieldS w = false ∧ fieldStack w = true :=
  and_stackMask_iff w (opcodeOf .strPush) false true

@[simp] theorem inRow_ldrR_iff : inRow (rowOf (.ldrR rd rm)) w ↔
    fieldOp w = opcodeOf .ldrPop ∧ fieldS w = false ∧ fieldStack w = false :=
  and_stackMask_iff w (opcodeOf .ldrPop) false false

@[simp] theorem inRow_ldrI_iff : inRow (rowOf (.ldrI rd v)) w ↔ fieldOp w = opcodeOf .ldrPop ∧ fieldS w = true :=
  and_sourceMask_iff w (opcodeOf .ldrPop) true

@[simp] theorem inRow_pop_iff : inRow (rowOf (.pop rd)) w ↔
    fieldOp w = opcodeOf .ldrPop ∧ fieldS w = false ∧ fieldStack w = true :=
  and_stackMask_iff w (opcodeOf .ldrPop) false true

end

/-! ## A word decodes to an instruction exactly where the row of that instruction holds it -/

theorem decode_of_inRow {w : Word} (i : Instr) (h : inRow (rowOf i) w) : decode w = .ok (i.withOperandsOf w) := by
  cases i using Instr.cases_by_form with
  | addR _ _ | addI _ _ | mulR _ _ | mulI _ _ | xorR _ _ | xorI _ _ | strI _ _ | ldrI _ _ =>
    simp only [inRow_addR_iff, inRow_addI_iff, inRow_mulR_iff, inRow_mulI_iff, inRow_xorR_iff, inRow_xorI_iff,
      inRow_strI_iff, inRow_ldrI_iff] at h
    obtain ⟨hop, hs⟩ := h
    simp [decode_of_opcode hop, decodeFamily, hs, Instr.withOperandsOf]
  | shiftR _ _ _ | shiftI _ _ _ =>
    simp only [inRow_shiftR_iff, inRow_shiftI_iff] at h
    obtain ⟨hop, hs, ht⟩ := h
    simp [decode_of_opcode hop, decodeFamily, hs, shiftKindOf_eq_some_iff.2 ht]
  | strR _ _ | push _ | ldrR _ _ | pop _ =>
    simp only [inRow_strR_iff, inRow_push_iff, inRow_ldrR_iff, inRow_pop_iff] at h
    obtain ⟨hop, hs, hstack⟩ := h
    simp [decode_of_opcode hop, decodeFamily, hs, hstack, Instr.withOperandsOf]

/-- What a word of a known family decodes to is in the row the word is in, with the word's operands. -/
theorem decodeFamily_ok {w : Word} {f : Family} {i : Instr} (hop : fieldOp w = opcodeOf f)
    (h : decodeFamily f w = .ok i) : inRow (rowOf i) w ∧ i.withOperandsOf w = i := by
  cases f with
  | add | mul | xor =>
    cases hs : fieldS w
    all_goals
      simp only [decodeFamily, hs, reduceIte, Bool.false_eq_true, Except.ok.injEq] at h
      subst h
      simp [hop, hs, Instr.withOperandsOf]
  | shf =>
    cases hk : shiftKindOf (fieldMode w) with
    | none => simp [decodeFamily, hk] at h
    | some k =>
      have ht := shiftKindOf_eq_some_iff.1 hk
      cases hs : fieldS w
      all_goals
        simp only [decodeFamily, hk, hs, reduceIte, Bool.false_eq_true, Except.ok.injEq] at h
        subst h
        simp [hop, hs, ht]
  | strPush | ldrPop =>
    cases hs : fieldS w <;> cases hstack : fieldStack w
    all_goals
      simp only [decodeFamily, hs, hstack, reduceIte, Bool.false_eq_true, Except.ok.injEq] at h
      subst h
      simp [hop, hs, hstack, Instr.withOperandsOf]

theorem decode_eq_ok_iff_inRow {w : Word} {i : Instr} :
    decode w = .ok i ↔ inRow (rowOf i) w ∧ i.withOperandsOf w = i := by
  refine ⟨fun h => ?_, fun ⟨hrow, hops⟩ => (decode_of_inRow i hrow).trans (congrArg _ hops)⟩
  obtain ⟨f, hop, hf⟩ := decode_eq_ok_iff.1 h
  exact decodeFamily_ok hop hf

end Sys2Proof
end

section
/-! The round trips of decoder and encoder, and what follows from them (30_encoding.md R59 to R63). -/

namespace Sys2Proof

/-! ## The encoder -/

theorem exists_append_eq {m n : Nat} (v : BitVec (m + n)) : ∃ (x : BitVec m) (y : BitVec n), v = x ++ y :=
  ⟨v.extractLsb' n m, v.extractLsb' 0 n, BitVec.extractLsb'_append_extractLsb'.symm⟩

theorem inRow_encode (i : Instr) : inRow (rowOf i) (encode i) := by
  cases i using Instr.cases_by_form with
  | addR _ _ | mulR _ _ | xorR _ _ => simp [encode, formatAR_eq, opcodeOf]
  | addI _ v | mulI _ v | xorI _ v | strI _ v | ldrI _ v =>
    obtain ⟨t, low, rfl⟩ := exists_append_eq (m := 3) (n := 4) v
    simp [encode, formatI7_append, opcodeOf]
  | shiftR _ _ _ => simp [formatSR_eq, opcodeOf]
  | shiftI _ _ _ => simp [formatSI_eq, opcodeOf]
  | strR _ _ | ldrR _ _ => simp [encode, formatMR_eq, opcodeOf]
  | push _ | pop _ => simp [encode, formatMP_eq, opcodeOf]

theorem withOperandsOf_encode (i : Instr) : i.withOperandsOf (encode i) = i := by
  cases i using Instr.cases_by_form with
  | addR _ _ | mulR _ _ | xorR _ _ => simp [encode, formatAR_eq, Instr.withOperandsOf]
  | addI _ v | mulI _ v | xorI _ v | strI _ v | ldrI _ v =>
    obtain ⟨t, low, rfl⟩ := exists_append_eq (m := 3) (n := 4) v
    simp [encode, formatI7_append, Instr.withOperandsOf]
  | shiftR _ _ _ => simp [formatSR_eq]
  | shiftI _ _ _ => simp [formatSI_eq]
  | strR _ _ | ldrR _ _ => simp [encode, formatMR_eq, Instr.withOperandsOf]
  | push _ | pop _ => simp [encode, formatMP_eq, Instr.withOperandsOf]

/-- Settles O4: the word of an instruction is in its row and holds its operands. -/
theorem decodeOfEncodeIsIdentity : Obligations.DecodeOfEncodeIsIdentity := fun i =>
  decode_eq_ok_iff_inRow.2 ⟨inRow_encode i, withOperandsOf_encode i⟩

/-! ## Canonical words -/

section
variable {op : BitVec 4} (rd : BitVec 4) (t : BitVec 3) (low : BitVec 4)

theorem canonicalize_AR (hop : op ∈ [0b1100#4, 0b0111#4, 0b0101#4]) :
    canonicalize (ofFields op rd false t low) = ofFields op rd false 0#3 low := by
  have hmask : 0xFF8F#16 = ofFields (BitVec.allOnes 4) (BitVec.allOnes 4) true 0#3 (BitVec.allOnes 4) := rfl
  have hclear : ofFields op rd false t low &&& 0xFF8F#16 = ofFields op rd false 0#3 low := by
    rw [hmask, ofFields_and, BitVec.and_allOnes, BitVec.and_allOnes, BitVec.and_allOnes, BitVec.and_zero, Bool.and_true]
  simp only [List.mem_cons, List.not_mem_nil, or_false] at hop
  rcases hop with rfl | rfl | rfl <;> simp [canonicalize, familyOf, hclear]

theorem canonicalize_MR (hop : op ∈ [0b1101#4, 0b1011#4]) (ht : t[2] = false) :
    canonicalize (ofFields op rd false t low) = ofFields op rd false 0#3 low := by
  have hmask : 0xFFCF#16 = ofFields (BitVec.allOnes 4) (BitVec.allOnes 4) true 0b100#3 (BitVec.allOnes 4) := rfl
  have hmode : t &&& 0b100#3 = 0#3 := by
    revert t
    decide
  have hclear : ofFields op rd false t low &&& 0xFFCF#16 = ofFields op rd false 0#3 low := by
    rw [hmask, ofFields_and, BitVec.and_allOnes, BitVec.and_allOnes, BitVec.and_allOnes, hmode, Bool.and_true]
  simp only [List.mem_cons, List.not_mem_nil, or_false] at hop
  rcases hop with rfl | rfl <;> simp [canonicalize, familyOf, ht, hclear]

theorem canonicalize_MP (hop : op ∈ [0b1101#4, 0b1011#4]) (ht : t[2] = true) :
    canonicalize (ofFields op rd false t low) = ofFields op rd false 0b100#3 0#4 := by
  have hmask : 0xFFC0#16 = ofFields (BitVec.allOnes 4) (BitVec.allOnes 4) true 0b100#3 0#4 := rfl
  have hmode : t &&& 0b100#3 = 0b100#3 := by
    revert t
    decide
  have hclear : ofFields op rd false t low &&& 0xFFC0#16 = ofFields op rd false 0b100#3 0#4 := by
    rw [hmask, ofFields_and, BitVec.and_allOnes, BitVec.and_allOnes, hmode, BitVec.and_zero, Bool.and_true]
  simp only [List.mem_cons, List.not_mem_nil, or_false] at hop
  rcases hop with rfl | rfl <;> simp [canonicalize, familyOf, ht, hclear]

end

theorem canonicalize_of_source {w : Word} (hs : fieldS w = true) : canonicalize w = w := by
  unfold canonicalize
  split <;> simp [hs]

theorem canonicalize_of_shf {w : Word} (hop : fieldOp w = opcodeOf .shf) : canonicalize w = w := by
  simp [canonicalize, familyOf_eq_some_iff.2 hop]

/-- A word that does not decode is of no family or of the Shf family, whose words have no don't-care bits. -/
theorem canonicalize_of_decode_error {w : Word} {e : DecodeFault} (h : decode w = .error e) : canonicalize w = w := by
  cases hf : familyOf (fieldOp w) with
  | none => simp [canonicalize, hf]
  | some f =>
    cases f with
    | shf => simp [canonicalize, hf]
    | add | mul | xor | strPush | ldrPop => simp [decode, hf, decodeFamily] at h

/-- The operands of a word make up all of it but its don't-care bits. -/
theorem encode_withOperandsOf {w : Word} (i : Instr) (h : inRow (rowOf i) w) :
    encode (i.withOperandsOf w) = canonicalize w := by
  obtain ⟨op, rd, s, t, low, rfl⟩ := exists_ofFields w
  cases i using Instr.cases_by_form with
  | addR _ _ | mulR _ _ | xorR _ _ =>
    simp only [inRow_addR_iff, inRow_mulR_iff, inRow_xorR_iff, fieldOp_ofFields, fieldS_ofFields] at h
    obtain ⟨rfl, rfl⟩ := h
    rw [canonicalize_AR rd t low (by decide)]
    simp [encode, formatAR_eq, opcodeOf, Instr.withOperandsOf]
  | addI _ _ | mulI _ _ | xorI _ _ | strI _ _ | ldrI _ _ =>
    simp only [inRow_addI_iff, inRow_mulI_iff, inRow_xorI_iff, inRow_strI_iff, inRow_ldrI_iff, fieldOp_ofFields,
      fieldS_ofFields] at h
    obtain ⟨rfl, rfl⟩ := h
    rw [canonicalize_of_source (by simp)]
    simp [encode, formatI7_append, opcodeOf, Instr.withOperandsOf]
  | shiftR _ _ _ | shiftI _ _ _ =>
    simp only [inRow_shiftR_iff, inRow_shiftI_iff, fieldOp_ofFields, fieldS_ofFields, fieldMode_ofFields] at h
    obtain ⟨rfl, rfl, rfl⟩ := h
    rw [canonicalize_of_shf (by simp)]
    simp [formatSR_eq, formatSI_eq, opcodeOf]
  | strR _ _ | ldrR _ _ =>
    simp only [inRow_strR_iff, inRow_ldrR_iff, fieldOp_ofFields, fieldS_ofFields, fieldStack_ofFields] at h
    obtain ⟨rfl, rfl, ht⟩ := h
    rw [canonicalize_MR rd t low (by decide) ht]
    simp [encode, formatMR_eq, opcodeOf, Instr.withOperandsOf]
  | push _ | pop _ =>
    simp only [inRow_push_iff, inRow_pop_iff, fieldOp_ofFields, fieldS_ofFields, fieldStack_ofFields] at h
    obtain ⟨rfl, rfl, ht⟩ := h
    rw [canonicalize_MP rd t low (by decide) ht]
    simp [encode, formatMP_eq, opcodeOf, Instr.withOperandsOf]

/-- Settles O5: the decoded instruction has the operands of its word, and these encode to the canonical word. -/
theorem encodeOfDecodeIsCanonical : Obligations.EncodeOfDecodeIsCanonical := by
  intro w i h
  obtain ⟨hrow, hoperands⟩ := decode_eq_ok_iff_inRow.1 h
  calc encode i = encode (i.withOperandsOf w) := by rw [hoperands]
    _ = canonicalize w := encode_withOperandsOf i hrow

/-! ## Don't-care bits -/

/-- Both round trips together: clearing the don't-care bits of a word keeps what it decodes to. -/
theorem decode_canonicalize (w : Word) : decode (canonicalize w) = decode w := by
  cases h : decode w with
  | error e => rw [canonicalize_of_decode_error h, h]
  | ok i => rw [← encodeOfDecodeIsCanonical w i h, decodeOfEncodeIsIdentity i]

theorem decode_eq_of_canonicalize_eq {w u : Word} (h : canonicalize w = canonicalize u) : decode w = decode u := by
  rw [← decode_canonicalize w, h, decode_canonicalize]

theorem append_MR (op rd : BitVec 4) (x : BitVec 2) (low : BitVec 4) :
    (op ++ rd ++ 0b00#2 ++ x ++ low : Word) = ofFields op rd false (0#1 ++ x) low := by
  apply BitVec.eq_of_toNat_eq
  simp only [toNat_ofFields, toNat_append_eq_add, BitVec.toNat_ofNat, Bool.toNat_false]
  omega

theorem append_MP (op rd : BitVec 4) (x : BitVec 2) (y : BitVec 4) :
    (op ++ rd ++ 0b01#2 ++ (x ++ y) : Word) = ofFields op rd false (1#1 ++ x) y := by
  apply BitVec.eq_of_toNat_eq
  simp only [toNat_ofFields, toNat_append_eq_add, BitVec.toNat_ofNat, Bool.toNat_false]
  omega

/-- Settles O6: words that differ in don't-care bits alone have one canonical word. -/
theorem dontCareBitsAreIgnored : Obligations.DontCareBitsAreIgnored := by
  refine ⟨fun op rd rm hop x y => ?ar, fun op rd rm hop x y => ?mr, fun op rd hop x y => ?mp⟩
  all_goals apply decode_eq_of_canonicalize_eq
  case ar => exact (canonicalize_AR rd x rm hop).trans (canonicalize_AR rd y rm hop).symm
  case mr =>
    have hselector (x : BitVec 2) : (0#1 ++ x)[2] = false := by
      revert x
      decide
    rw [append_MR, append_MR, canonicalize_MR rd _ rm hop (hselector x), canonicalize_MR rd _ rm hop (hselector y)]
  case mp =>
    have hselector (x : BitVec 2) : (1#1 ++ x)[2] = true := by
      revert x
      decide
    obtain ⟨x, x', rfl⟩ := exists_append_eq (m := 2) (n := 4) x
    obtain ⟨y, y', rfl⟩ := exists_append_eq (m := 2) (n := 4) y
    rw [append_MP, append_MP, canonicalize_MP rd _ x' hop (hselector x), canonicalize_MP rd _ y' hop (hselector y)]

/-! ## The opcode table -/

/-- Settles O7: the row of a decoded instruction holds its word; the sample of a row tells what its words decode to. -/
theorem decoderFollowsOpcodeTable : Obligations.DecoderFollowsOpcodeTable := by
  refine fun w => ⟨fun i h => ?_, fun row hmem hrow => ?_⟩
  · obtain ⟨hrow, _⟩ := decode_eq_ok_iff_inRow.1 h
    exact ⟨i.formed.2, hrow⟩
  · obtain ⟨sample, _, rfl⟩ := List.mem_map.1 hmem
    exact ⟨sample.withOperandsOf w, decode_of_inRow sample hrow, rowOf_withOperandsOf w sample⟩

/-! ## The opcode nibble -/

theorem toNat_fieldOp (w : Word) : (fieldOp w).toNat = w.toNat / 4096 := by
  rw [fieldOp, BitVec.extractLsb'_toNat, Nat.shiftRight_eq_div_pow]
  omega

theorem fieldOp_eq_opcodeOf {w : Word} {f : Family} (h : w.toNat / 4096 = (opcodeOf f).toNat) :
    fieldOp w = opcodeOf f :=
  BitVec.eq_of_toNat_eq ((toNat_fieldOp w).trans h)

theorem familyOf_eq_none_iff {op : BitVec 4} : familyOf op = none ↔ op.toNat ∈ [0, 1, 2, 3, 4, 6, 8, 9, 10, 15] := by
  revert op
  decide

/-- The family an instruction belongs to. -/
def Instr.family : Instr → Family
  | .addR _ _ | .addI _ _ => .add
  | .mulR _ _ | .mulI _ _ => .mul
  | .xorR _ _ | .xorI _ _ => .xor
  | .lsrR _ _ | .lsrI _ _ | .asrR _ _ | .asrI _ _ | .rorR _ _ | .rorI _ _ => .shf
  | .lslR _ _ | .lslI _ _ | .aslR _ _ | .aslI _ _ | .rolR _ _ | .rolI _ _ => .shf
  | .strR _ _ | .strI _ _ | .push _ => .strPush
  | .ldrR _ _ | .ldrI _ _ | .pop _ => .ldrPop

/-- The mnemonics of the rows of a family. -/
def Family.mnemonics : Family → List String
  | .add => ["ADD_R", "ADD_I"]
  | .mul => ["MUL_R", "MUL_I"]
  | .xor => ["XOR_R", "XOR_I"]
  | .shf =>
    ["LSR_R", "LSR_I", "ASR_R", "ASR_I", "ROR_R", "ROR_I", "LSL_R", "LSL_I", "ASL_R", "ASL_I", "ROL_R", "ROL_I"]
  | .strPush => ["STR_R", "STR_I", "PUSH"]
  | .ldrPop => ["LDR_R", "LDR_I", "POP"]

theorem rowOf_mnemonic_mem (i : Instr) : (rowOf i).mnemonic ∈ i.family.mnemonics := by
  cases i <;> simp [rowOf, Instr.family, Family.mnemonics]

/-- The mask of every row holds the whole opcode nibble. -/
theorem fieldOp_of_inRow {w : Word} {i : Instr} (h : inRow (rowOf i) w) : fieldOp w = opcodeOf i.family := by
  have hmask : fieldOp (rowOf i).mask = BitVec.allOnes 4 := by cases i <;> simp [rowOf, fieldOp]
  have hpattern : fieldOp (rowOf i).pattern = opcodeOf i.family := by
    cases i <;> simp [rowOf, fieldOp, Instr.family, opcodeOf]
  calc fieldOp w = fieldOp w &&& fieldOp (rowOf i).mask := by rw [hmask, BitVec.and_allOnes]
    _ = fieldOp (w &&& (rowOf i).mask) := BitVec.extractLsb'_and.symm
    _ = fieldOp (rowOf i).pattern := congrArg fieldOp h
    _ = opcodeOf i.family := hpattern

theorem opcodeOf_injective : Function.Injective opcodeOf := fun _ _ h =>
  Option.some.inj ((familyOf_eq_some_iff.2 rfl).symm.trans (familyOf_eq_some_iff.2 h))

theorem mnemonic_mem_of_decode {w : Word} {f : Family} {i : Instr} (hop : fieldOp w = opcodeOf f)
    (h : decode w = .ok i) : (rowOf i).mnemonic ∈ f.mnemonics := by
  obtain ⟨hrow, _⟩ := decode_eq_ok_iff_inRow.1 h
  obtain rfl : i.family = f := opcodeOf_injective ((fieldOp_of_inRow hrow).symm.trans hop)
  exact rowOf_mnemonic_mem i

/-- A word of a family decodes to an instruction of the family, or is a Shf word of no mode. -/
theorem decode_of_opcode_cases {w : Word} {f : Family} (hop : fieldOp w = opcodeOf f) :
    (f = .shf ∧ decode w = .error .illegalShiftMode) ∨ ∃ i, decode w = .ok i ∧ (rowOf i).mnemonic ∈ f.mnemonics := by
  cases h : decode w with
  | ok i => exact .inr ⟨i, rfl, mnemonic_mem_of_decode hop h⟩
  | error e =>
    rw [decode_of_opcode hop] at h
    cases f with
    | add | mul | xor | strPush | ldrPop => cases h
    | shf =>
      cases hk : shiftKindOf (fieldMode w) with
      | none => exact .inl ⟨rfl, by simpa [decodeFamily, hk] using h.symm⟩
      | some k => simp [decodeFamily, hk] at h

/-- Settles O1: the nibble is the opcode of one family or of none; the Shf family alone has words that do not decode. -/
theorem opcodeNibbleChoosesFamily : Obligations.OpcodeNibbleChoosesFamily := by
  intro w
  have hfamily {f : Family} (hf : f ≠ .shf) (h : w.toNat / 4096 = (opcodeOf f).toNat) :
      ∃ i, decode w = .ok i ∧ (rowOf i).mnemonic ∈ f.mnemonics :=
    (decode_of_opcode_cases (fieldOp_eq_opcodeOf h)).resolve_left fun ⟨hshf, _⟩ => hf hshf
  refine ⟨fun h => ?_, hfamily (f := .xor) nofun, hfamily (f := .mul) nofun, hfamily (f := .ldrPop) nofun,
    hfamily (f := .add) nofun, hfamily (f := .strPush) nofun, fun h => ?_⟩
  · rw [← toNat_fieldOp, ← familyOf_eq_none_iff] at h
    rw [decode, h]
  · exact (decode_of_opcode_cases (fieldOp_eq_opcodeOf (f := .shf) h)).imp_left And.right

end Sys2Proof
end

section
/-! The text of an instruction as tokens, and the reader on those tokens (30_encoding.md R71 to R77). -/

namespace Sys2Proof.Machine

/-! ## Tokens -/

/-- A token of word characters that the tokenizer's change to lower case keeps. -/
abbrev LowerWord (t : Token) : Prop := t ≠ [] ∧ ∀ c ∈ t, classOf c = .word ∧ c.toLower = c

theorem lowerWord_of_map {t : Token} (hne : t ≠ []) (hclass : t.map classOf = List.replicate t.length .word)
    (hlower : t.map Char.toLower = t) : LowerWord t :=
  have hid : t.map Char.toLower = t.map id := hlower.trans (List.map_id t).symm
  ⟨hne, fun c hc => ⟨List.map_eq_replicate_iff.1 hclass c hc, List.map_inj_left.1 hid c hc⟩⟩

/-- Text the tokenizer keeps whole: no capital letter, no comment. -/
abbrev PlainText (line : List Char) : Prop := ∀ c ∈ line, c.toLower = c ∧ c ≠ ';'

theorem LowerWord.plain {t : Token} (h : LowerWord t) : PlainText t := fun c hc =>
  ⟨(h.2 c hc).2, fun hsemi => nomatch (h.2 c hc).1.symm.trans (congrArg classOf hsemi)⟩

theorem tokenize_of_plain {line : List Char} (h : PlainText line) :
    tokenize line = tokensFrom .space [] line := by
  have hlower : line.map Char.toLower = line :=
    (List.map_inj_left.2 fun c hc => (h c hc).1).trans (List.map_id line)
  rw [tokenize, hlower, List.takeWhile_eq_self_iff.2 fun c hc => by simpa using (h c hc).2]

theorem tokensFrom_run {k : CharClass} {t : Token} (hk : k ≠ .space) (ht : ∀ c ∈ t, classOf c = k)
    (cur rest : List Char) : tokensFrom k cur (t ++ rest) = tokensFrom k (t.reverse ++ cur) rest := by
  induction t generalizing cur with
  | nil => rfl
  | cons c t ih =>
    obtain ⟨hc, ht⟩ := List.forall_mem_cons.1 ht
    simp [tokensFrom, hc, hk, ih ht]

/-- A run that the text does not prolong is a token. -/
theorem tokensFrom_flush {k : CharClass} {cur rest : List Char} (hcur : cur ≠ [])
    (hrest : ∀ c ∈ rest.head?, classOf c ≠ k) :
    tokensFrom k cur rest = cur.reverse :: tokensFrom .space [] rest := by
  cases rest with
  | nil => simp [tokensFrom, flushToken, hcur]
  | cons c rest =>
    have hc : classOf c ≠ k := hrest c rfl
    by_cases hspace : classOf c = .space
    · simp [tokensFrom, flushToken, hcur, hspace]
    · simp [tokensFrom, flushToken, hcur, hspace, hc]

theorem tokensFrom_token {k : CharClass} {t : Token} {rest : List Char} (hk : k ≠ .space) (hne : t ≠ [])
    (ht : ∀ c ∈ t, classOf c = k) (hrest : ∀ c ∈ rest.head?, classOf c ≠ k) :
    tokensFrom .space [] (t ++ rest) = t :: tokensFrom .space [] rest := by
  cases t with
  | nil => exact absurd rfl hne
  | cons c t =>
    obtain ⟨hc, ht⟩ := List.forall_mem_cons.1 ht
    have hstart : tokensFrom .space [] (c :: t ++ rest) = tokensFrom k [c] (t ++ rest) := by
      simp [tokensFrom, hc, hk, flushToken]
    rw [hstart, tokensFrom_run hk ht, tokensFrom_flush (by simp) hrest]
    simp

@[simp] theorem tokensFrom_blank (rest : List Char) :
    tokensFrom .space [] (' ' :: rest) = tokensFrom .space [] rest := rfl

theorem tokensFrom_word {t : Token} {rest : List Char} (ht : LowerWord t)
    (hrest : ∀ c ∈ rest.head?, classOf c ≠ .word) : tokensFrom .space [] (t ++ rest) = t :: tokensFrom .space [] rest :=
  tokensFrom_token (by decide) ht.1 (fun c hc => (ht.2 c hc).1) hrest

theorem tokensFrom_mark {c : Char} {rest : List Char} (hc : classOf c = .mark)
    (hrest : ∀ c ∈ rest.head?, classOf c ≠ .mark) :
    tokensFrom .space [] (c :: rest) = [c] :: tokensFrom .space [] rest :=
  tokensFrom_token (t := [c]) (by decide) (by simp) (by simpa using hc) hrest

/-! ## Registers and immediates -/

theorem digitChar_word {n : Nat} (h : n < 16) :
    classOf (digitChar n) = .word ∧ (digitChar n).toLower = digitChar n := by
  have hclass : ∀ n < 16, classOf (digitChar n) = .word := by decide
  have hlower : ∀ n < 16, (digitChar n).toLower = digitChar n := by decide
  exact ⟨hclass n h, hlower n h⟩

theorem digitOf_digitChar {n : Nat} (h : n < 16) : digitOf 16 (digitChar n) = some n := by
  revert n
  decide

theorem regText_word {n : Nat} (h : n < 16) : LowerWord (regText n) := by
  have hr : classOf 'r' = .word := by decide
  have hone (hn : n < 10) := digitChar_word (n := n) h
  have htens := digitChar_word (n := n / 10) (by omega)
  have hunits := digitChar_word (n := n % 10) (by omega)
  unfold regText
  split <;> simp_all [LowerWord]

theorem hexText_word (n : Nat) : LowerWord (hexText n) := by
  have h0 : classOf '0' = .word := by decide
  have hx : classOf 'x' = .word := by decide
  have hdigit (d : Nat) := digitChar_word (n := d % 16) (by omega)
  simp [LowerWord, hexText, h0, hx, hdigit]

theorem operandToken?_regText {n : Nat} (h : n < 16) : operandToken? (regText n) = some (.reg n) := by
  revert n
  decide

theorem regToken?_regText {n : Nat} (h : n < 16) : regToken? (regText n) = some n := by
  revert n
  decide

theorem operandToken?_hexText {n : Nat} (h : n < 65536) : operandToken? (hexText n) = some (.imm n) := by
  have hdigit (d : Nat) : digitOf 16 (digitChar (d % 16)) = some (d % 16) := digitOf_digitChar (by omega)
  have hnumber : immToken? (hexText n) = some n := by
    simp [hexText, immToken?, numberOf, numberFrom, hdigit]
    omega
  have hreg : regToken? (hexText n) = none := rfl
  simp [operandToken?, hreg, hnumber]

theorem mnemonicText_word (m : Mnemonic) : LowerWord (mnemonicText m) := by
  cases m <;> exact lowerWord_of_map (by decide) (by decide) (by decide)

theorem mnemonicOf_mnemonicText (m : Mnemonic) : mnemonicOf (mnemonicText m) = some m := by
  cases m <;> rfl

/-! ## The text of an instruction -/

/-- The tokens of the second operand, the separator before it. -/
def operandTokens (m : Mnemonic) : RawOperand → List Token
  | .none => []
  | .reg n => [','] :: (operatorText m ++ [regText n])
  | .imm n => [','] :: (operatorText m ++ [hexText n])

/-- A second operand that the mnemonic takes and that the text form can spell. -/
def SpelledOperand (m : Mnemonic) : RawOperand → Prop
  | .none => operandCount m = 1
  | .reg n => n < 16 ∧ operandCount m ≠ 1
  | .imm n => n < 65536 ∧ operandCount m ≠ 1

theorem raw_rd_lt (i : Instr) : i.raw.rd < 16 := by
  cases i <;> exact Fin.isLt _

theorem raw_op2_spelled (i : Instr) : SpelledOperand i.raw.mnemonic i.raw.op2 := by
  cases i with
  | addR _ rm | mulR _ rm | xorR _ rm | strR _ rm | ldrR _ rm | lsrR _ rm | asrR _ rm | rorR _ rm | lslR _ rm
  | aslR _ rm | rolR _ rm => exact ⟨rm.isLt, nofun⟩
  | addI _ v | mulI _ v | xorI _ v | strI _ v | ldrI _ v | lsrI _ v | asrI _ v | rorI _ v | lslI _ v | aslI _ v
  | rolI _ v => exact ⟨Nat.lt_of_lt_of_le v.isLt (by decide), nofun⟩
  | push _ | pop _ => rfl

theorem operandCount_eq {m : Mnemonic} (h : operandCount m ≠ 1) : operandCount m = (operatorText m).length + 3 := by
  cases m with
  | push | pop => exact absurd rfl h
  | _ => rfl

theorem operandCount_of_spelled {m : Mnemonic} {o : RawOperand} (h : SpelledOperand m o) :
    operandCount m = (operandTokens m o).length + 1 := by
  cases o with
  | none => exact h
  | reg _ | imm _ => simpa [operandTokens] using operandCount_eq h.2

/-! ## The tokens of the text -/

/-- An operator is one mark before the operand; most mnemonics have none. -/
theorem tokensFrom_operator (m : Mnemonic) {t : Token} (ht : LowerWord t) :
    tokensFrom .space [] ((operatorText m).flatten ++ t) = operatorText m ++ [t] := by
  have hword : tokensFrom .space [] t = [t] := by
    simpa [tokensFrom, flushToken] using tokensFrom_word (rest := []) ht (by simp)
  have hmark {c : Char} (hc : classOf c = .mark) : tokensFrom .space [] (c :: t) = [[c], t] := by
    rw [tokensFrom_mark hc fun d hd => by simp [(ht.2 d (List.mem_of_mem_head? hd)).1], hword]
  cases m with
  | str => exact hmark (c := '&') (by decide)
  | ldr => exact hmark (c := '*') (by decide)
  | _ => exact hword

theorem tokensFrom_operandText {m : Mnemonic} {o : RawOperand} (h : SpelledOperand m o) :
    tokensFrom .space [] (operandText m o) = operandTokens m o := by
  have hsep {t : Token} (ht : LowerWord t) :
      tokensFrom .space [] (',' :: ' ' :: (operatorText m).flatten ++ t) = [','] :: (operatorText m ++ [t]) := by
    have hspace : classOf ' ' ≠ .mark := by decide
    rw [List.cons_append, List.cons_append, tokensFrom_mark (by decide) (by simpa using hspace), tokensFrom_blank,
      tokensFrom_operator m ht]
  cases o with
  | none => rfl
  | reg n => exact hsep (regText_word h.1)
  | imm n => exact hsep (hexText_word n)

theorem operandText_plain {m : Mnemonic} {o : RawOperand} (h : SpelledOperand m o) : PlainText (operandText m o) := by
  have hoperator : PlainText (',' :: ' ' :: (operatorText m).flatten) := by
    cases m <;> simp [PlainText, operatorText]
  cases o with
  | none => nofun
  | reg n => exact List.forall_mem_append.2 ⟨hoperator, (regText_word h.1).plain⟩
  | imm n => exact List.forall_mem_append.2 ⟨hoperator, (hexText_word n).plain⟩

theorem tokenize_disassemble (i : Instr) :
    tokenize (disassemble i) =
      mnemonicText i.raw.mnemonic :: regText i.raw.rd :: operandTokens i.raw.mnemonic i.raw.op2 := by
  have hm := mnemonicText_word i.raw.mnemonic
  have hrd := regText_word (raw_rd_lt i)
  have hop2 := raw_op2_spelled i
  have hspace : classOf ' ' ≠ .word := by decide
  have hplain : PlainText (disassemble i) :=
    List.forall_mem_append.2 ⟨List.forall_mem_append.2 ⟨hm.plain, List.forall_mem_cons.2 ⟨by decide, hrd.plain⟩⟩,
      operandText_plain hop2⟩
  have hend : ∀ c ∈ (operandText i.raw.mnemonic i.raw.op2).head?, classOf c ≠ .word := by
    have hcomma : classOf ',' ≠ .word := by decide
    cases i.raw.op2 with
    | none => simp [operandText]
    | reg _ | imm _ => simpa [operandText] using hcomma
  rw [tokenize_of_plain hplain, disassemble, List.append_assoc, List.cons_append,
    tokensFrom_word hm (by simpa using hspace), tokensFrom_blank, tokensFrom_word hrd hend, tokensFrom_operandText hop2]

/-! ## The reader on those tokens -/

/-- A register or an immediate is read as such whatever labels there are. -/
theorem secondOperand_of_token {m : Mnemonic} {t : Token} {o : RawOperand} (h : operandToken? t = some o)
    (symbols : Symbols) (k : Nat) : secondOperand symbols k m t = .ok o := by
  cases m <;> simp [secondOperand, addressOperand, h]

theorem rawOperands_operandTokens {m : Mnemonic} {o : RawOperand} (h : SpelledOperand m o) (symbols : Symbols)
    (k d : Nat) : rawOperands symbols k m d (operandTokens m o) = .ok ⟨m, d, o⟩ := by
  have hread {t : Token} {o : RawOperand} (ht : operandToken? t = some o) :
      rawOperands symbols k m d ([','] :: (operatorText m ++ [t])) = .ok ⟨m, d, o⟩ := by
    cases hl : operatorText m ++ [t] with
    | nil => simp at hl
    | cons x xs => simp [rawOperands, ← hl, secondOperand_of_token ht, Except.map]
  cases o with
  | none => rfl
  | reg n => exact hread (operandToken?_regText h.1)
  | imm n => exact hread (operandToken?_hexText h.1)

/-- The tokens of a raw form that passes the checks read as its instruction. -/
theorem readInstr_tokens {i : Instr} {m : Mnemonic} {d : Nat} {o : RawOperand} (hd : d < 16) (ho : SpelledOperand m o)
    (hcheck : RawInstr.check ⟨m, d, o⟩ = some i) (symbols : Symbols) (k : Nat) :
    readInstr symbols k (mnemonicText m :: regText d :: operandTokens m o) = .ok i := by
  simp [readInstr, mnemonicOf_mnemonicText, readOperands, operandCount_of_spelled ho, regToken?_regText hd,
    rawOperands_operandTokens ho, hcheck]

/-- Settles O51: the text splits into the tokens of the raw form, which pass the checks. -/
theorem disassemblyReadsBack : Obligations.DisassemblyReadsBack := by
  intro symbols k i
  rw [tokenize_disassemble]
  exact readInstr_tokens (raw_rd_lt i) (raw_op2_spelled i) i.formed.1 symbols k

end Sys2Proof.Machine
end

section
/-! The label operand of STR and LDR and the PC-relative address (30_encoding.md R76, 45_str_push.md R125). -/

namespace Sys2Proof.Machine

/-- The field of a label is its line distance from the next line, a number of seven bits in two's complement. -/
theorem labelField?_eq_some {k l v : Nat} (h : labelField? k l = some v) :
    -64 ≤ (l : Int) - (k + 1) ∧ (l : Int) - (k + 1) ≤ 63 ∧ (v : Int) = ((l : Int) - (k + 1)) % 128 := by
  simp only [labelField?, Option.ite_none_right_eq_some, Option.some.injEq] at h
  obtain ⟨⟨hlo, hhi⟩, hv⟩ := h
  omega

/-- Settles O52: extended by sign and doubled, the field is the byte distance from the next instruction to the label. -/
theorem labelFieldReachesItsLine : Obligations.LabelFieldReachesItsLine := by
  intro s k l v h hpc
  obtain ⟨hlo, hhi, hv⟩ := labelField?_eq_some h
  have hlt : v < 128 := by omega
  refine ⟨hlt, BitVec.eq_of_toNat_eq ?_⟩
  have hpc : s.pc.toNat = 2 * k % 65536 := by rw [State.pc, hpc, BitVec.toNat_ofNat]
  have hsext : (sext7 (BitVec.ofNat 7 v)).toNat = v + if 64 ≤ v then 65536 - 128 else 0 := by
    rw [toNat_sext7, BitVec.toNat_ofNat, Nat.mod_eq_of_lt hlt]
  simp only [State.eaPcRel, pcrelBase, BitVec.toNat_add, BitVec.toNat_mul, BitVec.toNat_ofNat, hpc, hsext]
  split <;> omega

end Sys2Proof.Machine
end

section
/-! The instruction cycle (40_instruction_cycle.md): what a step fetches and decodes, when an instruction redirects, and the step
that repeats itself. -/

namespace Sys2Proof.Machine

/-! ## A step answers a next state -/

/-- Settles O43: each of the three outcomes of a step is a next state. -/
theorem everyStepHasANextState : Obligations.EveryStepHasANextState := by
  intro s
  rcases step_cases s with ⟨_, _, hstep⟩ | ⟨_, _, _, hstep⟩ | ⟨_, _, _, hstep⟩
  · exact ⟨s, hstep⟩
  · exact ⟨_, hstep⟩
  · exact ⟨_, hstep⟩

/-! ## Fetch and decode -/

/-- At an accessible program counter the fetch succeeds, and its word is decoded. -/
theorem State.fetchInstr_of_accessible {s : State} (hpc : s.accessible s.pc) :
    s.fetchInstr = s.decodeAt (Memory.readWord s.mem s.pc.toNat) := by
  rw [State.fetchInstr, State.fetch, State.memRead_of_accessible hpc]

theorem State.fetchInstr_of_decode {s : State} {i : Instr} (hpc : s.accessible s.pc)
    (hdecode : decode (Memory.readWord s.mem s.pc.toNat) = .ok i) : s.fetchInstr = .ok i := by
  rw [State.fetchInstr_of_accessible hpc, State.decodeAt, hdecode]

/-! ## The step of a decoded instruction -/

theorem step_of_exec {s t : State} {i : Instr} (hrun : s.status = .run) (hfetch : s.fetchInstr = .ok i)
    (hexec : exec i s = .next t) : step s = .next (advancePc i s t) := by
  rw [step_of_instr hrun hfetch, hexec, finishStep_next]

/-- Settles O39: the step executes the decoded instruction, and the program-counter update has three cases. -/
theorem stepRunsDecodedInstruction : Obligations.StepRunsDecodedInstruction := by
  intro s t i hrun hpc hdecode hexec
  have hstep : step s = .next (advancePc i s t) :=
    step_of_exec hrun (State.fetchInstr_of_decode hpc hdecode) hexec
  refine ⟨fun c hfault => ?_, fun ht hredirects => ?_, fun ht hredirects => ?_⟩
  · rw [hstep, advancePc_fault hfault]
  · rw [hstep, advancePc_run ht, hredirects, if_pos rfl]
  · rw [hstep, advancePc_run ht, hredirects, if_neg Bool.false_ne_true]
    rfl

/-! ## Redirects -/

/-- An instruction that writes `x[rd]` redirects where `rd` is 15; the implicit writes of `x[13]` by PUSH and POP do not
(40_instruction_cycle.md R86). -/
theorem redirects_iff_mem_destinations (i : Instr) : redirects i = true ↔ Reg.pc ∈ destinations i := by
  have hsp : Reg.pc ≠ Reg.sp := by decide
  have hwrites (rd : Reg) : (rd == Reg.pc) = true ↔ Reg.pc = rd := beq_iff_eq.trans eq_comm
  cases i with
  | addR rd _ | addI rd _ | mulR rd _ | mulI rd _ | xorR rd _ | xorI rd _
  | lsrR rd _ | lsrI rd _ | asrR rd _ | asrI rd _ | rorR rd _ | rorI rd _
  | lslR rd _ | lslI rd _ | aslR rd _ | aslI rd _ | rolR rd _ | rolI rd _
  | ldrR rd _ | ldrI rd _ => exact (hwrites rd).trans List.mem_singleton.symm
  | strR _ _ | strI _ _ => simp [redirects, destinations]
  | push _ => simp [redirects, destinations, hsp]
  | pop rd => exact (hwrites rd).trans (by simp [destinations, hsp])

/-- Settles O37: an instruction that does not redirect has no destination 15, and only destinations change. -/
theorem redirectIffProgramCounterIsWritten : Obligations.RedirectIffProgramCounterIsWritten := by
  refine ⟨redirects_iff_mem_destinations, fun i s t hexec hredirects => ?_⟩
  have hnot : Reg.pc ∉ destinations i := fun hmem =>
    Bool.false_ne_true (hredirects.symm.trans ((redirects_iff_mem_destinations i).2 hmem))
  exact onlyDestinationsChange i s t hexec Reg.pc hnot

/-! ## The instruction that repeats itself -/

@[simp] theorem State.setReg_reg_self (s : State) (r : Reg) : s.setReg r (s.reg r) = s := by
  simp [State.setReg, State.reg]

/-- Adding 0 changes nothing, whatever the register. -/
theorem exec_addI_zero (rd : Reg) (s : State) : exec (.addI rd 0#7) s = .next s := by
  have hsum : addWord (s.reg rd) (zext7 0#7) = s.reg rd := BitVec.add_zero _
  rw [exec, execAddI, State.combine, State.op2Value, hsum, State.setReg_reg_self]

/-- The write of `x[15]` redirects although the value is the old one (decision D4). -/
theorem step_of_addI_pc_zero {s : State} (hrun : s.status = .run) (hfetch : s.fetchInstr = .ok (.addI Reg.pc 0#7)) :
    step s = .next s := by
  have hredirects : redirects (.addI Reg.pc 0#7) = true := rfl
  rw [step_of_exec hrun hfetch (exec_addI_zero Reg.pc s), advancePc_run hrun, if_pos hredirects]

theorem run_of_step_self {M : Host.Core} {s : M.State} (h : M.step s = .next s) (n : Nat) : M.run n s = .next s := by
  induction n with
  | zero => rfl
  | succ n ih => exact (run_succ_of_step n h).trans ih

/-- Settles O45: the word is `add pc, 0x00`, whose step answers the state it began in, so that every run does. -/
theorem addZeroToPcRepeatsForever : Obligations.AddZeroToPcRepeatsForever := by
  intro n s hrun hpc hword
  have hdecode : decode (Memory.readWord s.mem s.pc.toNat) = .ok (.addI Reg.pc 0#7) := by rw [hword]; decide
  have hstep : step s = .next s := step_of_addI_pc_zero hrun (State.fetchInstr_of_decode hpc hdecode)
  exact ⟨fun k _ => ⟨s, run_of_step_self (M := core) hstep k, hrun⟩, run_of_step_self (M := core) hstep n⟩

end Sys2Proof.Machine
end

section
/-! Addition (41_add.md): the register `x[rd]` after a combination with the second operand, what is kept, and the sum. -/

namespace Sys2Proof.Machine

/-! ## A combination of `x[rd]` with the second operand -/

theorem State.combine_reg_self (s : State) (g : Word → Word → Word) (rd : Reg) (o : Operand2) :
    (s.combine g rd o).reg rd = g (s.reg rd) (s.op2Value o) := State.reg_setReg_self ..

/-- A combination writes `x[rd]` alone (10_state.md R12). -/
theorem State.combine_frameRegs (s : State) (g : Word → Word → Word) (rd : Reg) (o : Operand2) :
    FrameRegs [rd] s (s.combine g rd o) := by
  have hregs : SameRegsBut [rd] s (s.combine g rd o) := fun _ hr =>
    State.reg_setReg_of_ne (List.ne_of_not_mem_cons hr)
  exact ⟨hregs, s.combine_flags rd g o, fun _ => by rw [State.combine_mem], s.combine_status rd g o, s.combine_ramSize rd g o⟩

/-! ## The sum -/

/-- 41_add.md R92. -/
theorem toNat_addWord (a b : Word) : (addWord a b).toNat = (a.toNat + b.toNat) % 65536 := BitVec.toNat_add a b

/-- An instruction that adds the operand `o` to `x[rd]`, whichever its form, leaves the sum modulo 2^16 and its frame. -/
theorem exec_sum_frame {i : Instr} {s : State} {rd : Reg} {o : Operand2}
    (hexec : exec i s = .next (s.combine addWord rd o)) :
    ∃ t, exec i s = .next t ∧
      (t.reg rd).toNat = ((s.reg rd).toNat + (s.op2Value o).toNat) % 65536 ∧ FrameRegs [rd] s t := by
  refine ⟨s.combine addWord rd o, hexec, ?_, s.combine_frameRegs addWord rd o⟩
  rw [State.combine_reg_self, toNat_addWord]

/-- Settles O18: both forms add their operand to `x[rd]`, and the zero-extended immediate has the value of its field. -/
theorem addWritesSumAndKeepsTheRest : Obligations.AddWritesSumAndKeepsTheRest := by
  intro s rd rm imm7
  have hregister : exec (.addR rd rm) s = .next (s.combine addWord rd (.reg rm)) := exec_eq _ s
  have himmediate : exec (.addI rd imm7) s = .next (s.combine addWord rd (.imm (zext7 imm7))) := exec_eq _ s
  have hvalue : (s.op2Value (.imm (zext7 imm7))).toNat = imm7.toNat := toNat_zext7 imm7
  exact ⟨exec_sum_frame hregister, hvalue ▸ exec_sum_frame himmediate⟩

end Sys2Proof.Machine
end

section
/-! Multiplication (42_mul.md): the low 16 bits of the product, read without sign and in two's complement, and what is kept. -/

namespace Sys2Proof.Machine

/-! ## The immediate in two's complement -/

/-- 00_scope.md R6: the extension keeps the signed value of the field. -/
theorem toInt_sext7 (f : BitVec 7) : (sext7 f).toInt = f.toInt := BitVec.toInt_signExtend_of_le (by decide)

/-! ## The product -/

/-- 42_mul.md R97, the unsigned reading. -/
theorem toNat_mulWord (a b : Word) : (mulWord a b).toNat = (a.toNat * b.toNat) % 65536 := BitVec.toNat_mul a b

/-- 42_mul.md R97, the signed reading: the low 16 bits do not depend on it. -/
theorem mulWord_eq_ofInt_toInt (a b : Word) : mulWord a b = BitVec.ofInt 16 (a.toInt * b.toInt) := by
  rw [BitVec.ofInt_mul, BitVec.ofInt_toInt, BitVec.ofInt_toInt, mulWord]

/-- An instruction that multiplies `x[rd]` by the operand `o`, whichever its form, leaves the low product in both readings and
its frame. -/
theorem exec_product_frame {i : Instr} {s : State} {rd : Reg} {o : Operand2}
    (hexec : exec i s = .next (s.combine mulWord rd o)) :
    ∃ t, exec i s = .next t ∧
      (t.reg rd).toNat = ((s.reg rd).toNat * (s.op2Value o).toNat) % 65536 ∧
      t.reg rd = BitVec.ofInt 16 ((s.reg rd).toInt * (s.op2Value o).toInt) ∧ FrameRegs [rd] s t := by
  refine ⟨s.combine mulWord rd o, hexec, ?_, ?_, s.combine_frameRegs mulWord rd o⟩
  · rw [State.combine_reg_self, toNat_mulWord]
  · rw [State.combine_reg_self, mulWord_eq_ofInt_toInt]

/-- Settles O19: both forms multiply `x[rd]` by their operand, and the sign-extended immediate has the signed value of its
field. -/
theorem mulWritesLowProductAndKeepsTheRest : Obligations.MulWritesLowProductAndKeepsTheRest := by
  intro s rd rm imm7
  have hregister : exec (.mulR rd rm) s = .next (s.combine mulWord rd (.reg rm)) := exec_eq _ s
  have himmediate : exec (.mulI rd imm7) s = .next (s.combine mulWord rd (.imm (sext7 imm7))) := exec_eq _ s
  have hvalue : (s.op2Value (.imm (sext7 imm7))).toInt = imm7.toInt := toInt_sext7 imm7
  obtain ⟨t, hnext, _, hsigned, hframe⟩ := exec_product_frame himmediate
  exact ⟨exec_product_frame hregister, t, hnext, hvalue ▸ hsigned, hframe⟩

end Sys2Proof.Machine
end

section
/-! Exclusive or (43_xor.md): the result bit by bit, the flags it sets, and what is kept. -/

namespace Sys2Proof.Machine

/-! ## The flags -/

/-- 43_xor.md R102: Z and N of the result, V and C clear. -/
theorem flagsXor_eq (r : Word) : flagsXor r = ⟨decide (r = 0#16), r.getLsbD 15, false, false⟩ := rfl

/-- Settles O12: Z excludes N, since 0 has no bit set, so that at most one of the two low bits of `SR` is set. -/
theorem xorStatusIsOneOfThree : Obligations.XorStatusIsOneOfThree := by
  intro r
  by_cases hzero : r = 0#16
  · subst hzero
    rfl
  · rw [if_neg hzero, flagsXor_eq, decide_eq_false hzero]
    cases r.getLsbD 15 with
    | true => rfl
    | false => rfl

/-! ## The bits -/

/-- 43_xor.md R100. -/
theorem getLsbD_xorWord (a b : Word) (k : Nat) : (xorWord a b).getLsbD k = (a.getLsbD k ^^ b.getLsbD k) :=
  BitVec.getLsbD_xor

/-- 43_xor.md R101: bits 15:6 of the extended immediate are bit 6 of its field. -/
theorem getLsbD_sext7 (f : BitVec 7) {k : Nat} (hk : k < 16) : (sext7 f).getLsbD k = f.getLsbD (min k 6) := by
  rw [sext7, BitVec.getLsbD_signExtend, decide_eq_true hk, Bool.true_and]
  split
  next hfield => rw [Nat.min_eq_left (by omega)]
  next habove => rw [Nat.min_eq_right (by omega), BitVec.msb_eq_getLsbD_last]

/-! ## The instruction -/

theorem State.combineXor_reg_self (s : State) (rd : Reg) (o : Operand2) :
    (s.combineXor rd o).reg rd = xorWord (s.reg rd) (s.op2Value o) := State.reg_setReg_self ..

/-- An exclusive or writes `x[rd]` and the flags alone (10_state.md R12, R17). -/
theorem State.combineXor_frameRegsFlags (s : State) (rd : Reg) (o : Operand2) :
    FrameRegsFlags [rd] s (s.combineXor rd o) := by
  have hregs : SameRegsBut [rd] s (s.combineXor rd o) := fun _ hr =>
    State.reg_setReg_of_ne (List.ne_of_not_mem_cons hr)
  exact ⟨hregs, fun _ => by rw [State.combineXor_mem], s.combineXor_status rd o, s.combineXor_ramSize rd o⟩

/-- An instruction that combines `x[rd]` with the operand `o`, whichever its form, leaves the exclusive or of their bits, its
flags and its frame. -/
theorem exec_xor_frame {i : Instr} {s : State} {rd : Reg} {o : Operand2} (hexec : exec i s = .next (s.combineXor rd o)) :
    ∃ t, exec i s = .next t ∧
      (∀ k, k < 16 → (t.reg rd).getLsbD k = ((s.reg rd).getLsbD k ^^ (s.op2Value o).getLsbD k)) ∧
      t.flags = ⟨decide (t.reg rd = 0#16), (t.reg rd).getLsbD 15, false, false⟩ ∧ FrameRegsFlags [rd] s t := by
  refine ⟨s.combineXor rd o, hexec, fun k _ => ?_, ?_, s.combineXor_frameRegsFlags rd o⟩
  · rw [State.combineXor_reg_self, getLsbD_xorWord]
  · rw [State.combineXor_flags, State.combineXor_reg_self, flagsXor_eq]

/-- Settles O20: both forms combine `x[rd]` with their operand, and the bits of the sign-extended immediate are those of its
field, bit 6 repeated. -/
theorem xorWritesBitsAndFlags : Obligations.XorWritesBitsAndFlags := by
  intro s rd rm imm7
  have hregister : exec (.xorR rd rm) s = .next (s.combineXor rd (.reg rm)) := exec_eq _ s
  have himmediate : exec (.xorI rd imm7) s = .next (s.combineXor rd (.imm (sext7 imm7))) := exec_eq _ s
  obtain ⟨t, hnext, hbits, hflags, hframe⟩ := exec_xor_frame himmediate
  have hfield : ∀ k, k < 16 → (t.reg rd).getLsbD k = ((s.reg rd).getLsbD k ^^ imm7.getLsbD (min k 6)) := by
    intro k hk
    rw [hbits k hk, State.op2Value, getLsbD_sext7 imm7 hk]
  exact ⟨exec_xor_frame hregister, t, hnext, hfield, hflags, hframe⟩

end Sys2Proof.Machine
end

section
/-! The shift operation (44_shf.md R106, R108): its three ranges of amounts, the six results by arithmetic and by bits, and which
kinds agree. -/

namespace Sys2Proof.Machine

/-! ## The ranges of the amount -/

theorem shiftOp_of_le {n : Nat} (h : 16 ≤ n) (k : ShiftKind) (v : Word) : shiftOp k v n = (0#16, false) := if_pos h

@[simp] theorem shiftOp_zero (k : ShiftKind) (v : Word) : shiftOp k v 0 = (v, false) := rfl

theorem shiftOp_of_pos_of_lt {n : Nat} (hpos : 1 ≤ n) (hlt : n < 16) (k : ShiftKind) (v : Word) :
    shiftOp k v n = (shiftResult k v n, shiftCarry k v n) := by
  rw [shiftOp, if_neg (by omega), if_neg (by omega)]

/-- Kinds that agree on the amounts from 1 to 15 agree on all: outside them the kind plays no part. -/
theorem shiftOp_congr {k l : ShiftKind} {v : Word} {n : Nat} (hresult : shiftResult k v n = shiftResult l v n)
    (hcarry : shiftCarry k v n = shiftCarry l v n) : shiftOp k v n = shiftOp l v n := by
  rw [shiftOp, shiftOp, hresult, hcarry]

/-! ## The logical and arithmetic results -/

theorem toNat_shiftResult_lsr (v : Word) (n : Nat) : (shiftResult .lsr v n).toNat = v.toNat / 2 ^ n := by
  rw [shiftResult, BitVec.toNat_ushiftRight, Nat.shiftRight_eq_div_pow]

/-- The signed quotient, rounded down. -/
theorem toInt_shiftResult_asr (v : Word) (n : Nat) : (shiftResult .asr v n).toInt = v.toInt / 2 ^ n := by
  rw [shiftResult, BitVec.toInt_sshiftRight, Int.shiftRight_eq_div_pow, Nat.cast_pow, Nat.cast_ofNat]

theorem toNat_shiftResult_lsl (v : Word) (n : Nat) : (shiftResult .lsl v n).toNat = v.toNat * 2 ^ n % 65536 := by
  rw [shiftResult, BitVec.toNat_shiftLeft, Nat.shiftLeft_eq]

/-- The product modulo 2^16 is the same for the signed and the unsigned reading of the operand. -/
theorem shiftResult_asl_eq_ofInt (v : Word) (n : Nat) :
    shiftResult .asl v n = BitVec.ofInt 16 (v.toInt * 2 ^ n) := by
  refine BitVec.eq_of_toInt_eq ?_
  rw [shiftResult, BitVec.toInt_shiftLeft, BitVec.toInt_ofInt, BitVec.toInt_eq_toNat_bmod, Int.bmod_mul_bmod,
    Nat.shiftLeft_eq, Nat.cast_mul, Nat.cast_pow, Nat.cast_ofNat]

/-! ## The rotates -/

theorem shiftResult_ror_eq_rotateRight (v : Word) {n : Nat} (hlt : n < 16) :
    shiftResult .ror v n = v.rotateRight n := by
  rw [shiftResult, BitVec.rotateRight_def, Nat.mod_eq_of_lt hlt]

/-- Bit `i + n`, the positions counted modulo 16, moves to bit `i`. -/
theorem getLsbD_shiftResult_ror (v : Word) {n i : Nat} (hlt : n < 16) (hi : i < 16) :
    (shiftResult .ror v n).getLsbD i = v.getLsbD ((i + n) % 16) := by
  rw [shiftResult_ror_eq_rotateRight v hlt, BitVec.getLsbD_rotateRight, Nat.mod_eq_of_lt hlt]
  by_cases hwrap : i < 16 - n
  · have hindex : (i + n) % 16 = n + i := by omega
    simp [hwrap, hindex]
  · have hindex : (i + n) % 16 = i - (16 - n) := by omega
    simp [hwrap, hindex, hi]

/-- 44_shf.md R108: a rotate left is the rotate right by the rest of the 16 places. -/
theorem shiftResult_rol_eq_ror (v : Word) {n : Nat} (hle : n ≤ 16) :
    shiftResult .rol v n = shiftResult .ror v (16 - n) := by
  rw [shiftResult, shiftResult, Nat.sub_sub_self hle, BitVec.or_comm]

theorem getLsbD_shiftResult_rol (v : Word) {n i : Nat} (hpos : 1 ≤ n) (hle : n ≤ 16) (hi : i < 16) :
    (shiftResult .rol v n).getLsbD ((i + n) % 16) = v.getLsbD i := by
  have hindex : ((i + n) % 16 + (16 - n)) % 16 = i := by omega
  rw [shiftResult_rol_eq_ror v hle, getLsbD_shiftResult_ror v (by omega) (Nat.mod_lt _ (by decide)), hindex]

/-- A rotate carries nothing out, whatever the amount. -/
theorem shiftOp_carry_of_rotate {k : ShiftKind} (hk : k = .ror ∨ k = .rol) (v : Word) (n : Nat) :
    (shiftOp k v n).2 = false := by
  have hcarry : shiftCarry k v n = false := by rcases hk with rfl | rfl <;> rfl
  simp only [shiftOp, hcarry]
  split
  next => rfl
  next => split <;> rfl

/-! ## The statements -/

/-- Settles O21: the three ranges of the amount, and in the middle one the result of each kind. -/
theorem shiftOpMeansItsArithmetic : Obligations.ShiftOpMeansItsArithmetic := by
  intro v n
  refine ⟨fun hge k => shiftOp_of_le hge k v, fun hzero k => hzero ▸ shiftOp_zero k v, fun hpos hle => ?_⟩
  have hlt : n < 16 := Nat.lt_succ_of_le hle
  simp only [shiftOp_of_pos_of_lt hpos hlt]
  exact ⟨⟨toNat_shiftResult_lsr v n, rfl⟩, ⟨toInt_shiftResult_asr v n, rfl⟩,
    ⟨fun _ hi => getLsbD_shiftResult_ror v hlt hi, rfl⟩, ⟨toNat_shiftResult_lsl v n, rfl⟩,
    ⟨shiftResult_asl_eq_ofInt v n, rfl⟩, ⟨fun _ hi => getLsbD_shiftResult_rol v hpos hlt.le hi, rfl⟩⟩

/-- Settles O22: the kinds agree in result and in carryout on the amounts from 1 to 15, ASL and LSL by definition. -/
theorem shiftEquivalences : Obligations.ShiftEquivalences := by
  intro v n
  refine ⟨shiftOp_congr rfl rfl, fun hpos hle => ?_, fun hsign => shiftOp_congr ?_ rfl⟩
  · rw [shiftOp_of_pos_of_lt hpos (by omega), shiftOp_of_pos_of_lt (by omega) (by omega), shiftResult_rol_eq_ror v (by omega)]
    rfl
  · have hmsb : v.msb = false := (BitVec.msb_eq_getLsbD_last v).trans hsign
    exact (BitVec.sshiftRight_eq_of_msb_false hmsb).symm

end Sys2Proof.Machine
end

section
/-! The shift instructions (44_shf.md R105, R107): what each form executes, the flags it sets, and what is kept. -/

namespace Sys2Proof.Machine

/-! ## The flags -/

/-- 44_shf.md R107: Z and N of the result, C the carryout, V the exclusive or of carryout and N. -/
theorem flagsShf_eq (r : Word) (c : Bool) :
    flagsShf r c = ⟨decide (r = 0#16), r.getLsbD 15, c ^^ r.getLsbD 15, c⟩ := rfl

theorem flagsShf_no_carry (r : Word) :
    flagsShf r false = ⟨decide (r = 0#16), r.getLsbD 15, r.getLsbD 15, false⟩ := by
  rw [flagsShf_eq, Bool.false_xor]

/-- D10: the flags of an amount of 16 or more, Z alone. -/
theorem flagsShf_zero_no_carry : flagsShf 0#16 false = ⟨true, false, false, false⟩ := rfl

/-! ## The state after a shift -/

theorem State.shiftBy_reg_self (s : State) (k : ShiftKind) (rd : Reg) (n : Nat) :
    (s.shiftBy k rd n).reg rd = (shiftOp k (s.reg rd) n).1 := State.reg_setReg_self ..

/-- A shift writes `x[rd]` and the flags alone (10_state.md R12, R17). -/
theorem State.shiftBy_frameRegsFlags (s : State) (k : ShiftKind) (rd : Reg) (n : Nat) :
    FrameRegsFlags [rd] s (s.shiftBy k rd n) := by
  have hregs : SameRegsBut [rd] s (s.shiftBy k rd n) := fun _ hr =>
    State.reg_setReg_of_ne (List.ne_of_not_mem_cons hr)
  exact ⟨hregs, fun _ => by rw [State.shiftBy_mem], s.shiftBy_status rd k n, s.shiftBy_ramSize rd k n⟩

/-! ## The twelve instructions -/

/-- 44_shf.md R105: the amount of a register form is the whole unsigned value of `x[rm]`. -/
theorem exec_shiftR (k : ShiftKind) (rd rm : Reg) (s : State) :
    exec (shiftR k rd rm) s = .next (s.shiftBy k rd (s.reg rm).toNat) := by
  cases k <;> exact exec_eq _ s

/-- 44_shf.md R105: the amount of an immediate form is its field without sign. -/
theorem exec_shiftI (k : ShiftKind) (rd : Reg) (imm4 : BitVec 4) (s : State) :
    exec (shiftI k rd imm4) s = .next (s.shiftBy k rd imm4.toNat) := by
  cases k <;> exact exec_eq _ s

/-- An instruction that shifts `x[rd]`, whichever its form, leaves the result, its flags and its frame. -/
theorem shiftsBy_of_exec {i : Instr} {s : State} {k : ShiftKind} {rd : Reg} {n : Nat}
    (hexec : exec i s = .next (s.shiftBy k rd n)) : ShiftsBy i k rd n s := by
  refine ⟨s.shiftBy k rd n, hexec, s.shiftBy_reg_self k rd n, ?_⟩
  rw [State.shiftBy_reg_self, State.shiftBy_flags, flagsShf_eq]
  exact ⟨rfl, rfl, rfl, rfl, s.shiftBy_frameRegsFlags k rd n⟩

theorem shiftsBy_shiftR (s : State) (k : ShiftKind) (rd rm : Reg) :
    ShiftsBy (shiftR k rd rm) k rd (s.reg rm).toNat s := shiftsBy_of_exec (exec_shiftR k rd rm s)

theorem shiftsBy_shiftI (s : State) (k : ShiftKind) (rd : Reg) (imm4 : BitVec 4) :
    ShiftsBy (shiftI k rd imm4) k rd imm4.toNat s := shiftsBy_of_exec (exec_shiftI k rd imm4 s)

/-! ## The statements -/

/-- Settles O23: the register form of each kind. -/
theorem shiftRegisterFormsComplete : Obligations.ShiftRegisterFormsComplete := fun s rd rm =>
  ⟨shiftsBy_shiftR s .lsr rd rm, shiftsBy_shiftR s .asr rd rm, shiftsBy_shiftR s .ror rd rm,
    shiftsBy_shiftR s .lsl rd rm, shiftsBy_shiftR s .asl rd rm, shiftsBy_shiftR s .rol rd rm⟩

/-- Settles O24: the immediate form of each kind. -/
theorem shiftImmediateFormsComplete : Obligations.ShiftImmediateFormsComplete := fun s rd imm4 =>
  ⟨shiftsBy_shiftI s .lsr rd imm4, shiftsBy_shiftI s .asr rd imm4, shiftsBy_shiftI s .ror rd imm4,
    shiftsBy_shiftI s .lsl rd imm4, shiftsBy_shiftI s .asl rd imm4, shiftsBy_shiftI s .rol rd imm4⟩

/-- Settles O25: the four flags are those of result and carryout, and each consequence draws on what the shift operation gives
in its case. -/
theorem shiftFlagsAndTheirConsequences : Obligations.ShiftFlagsAndTheirConsequences := by
  intro s k rd rm imm4 i n hform
  have hexec : exec i s = .next (s.shiftBy k rd n) := by
    rcases hform with ⟨rfl, rfl⟩ | ⟨rfl, rfl⟩
    · exact exec_shiftR k rd rm s
    · exact exec_shiftI k rd imm4 s
  refine ⟨s.shiftBy k rd n, hexec, ?_⟩
  rw [State.shiftBy_flags]
  refine ⟨rfl, rfl, rfl, rfl, Flags.toNat_sr _, fun hrotate => ?_, fun hge => ?_, fun hzero => ?_⟩
  · rw [shiftOp_carry_of_rotate hrotate, flagsShf_no_carry]
    exact ⟨rfl, rfl⟩
  · rw [shiftOp_of_le hge, flagsShf_zero_no_carry]
    exact ⟨rfl, rfl⟩
  · rw [hzero, shiftOp_zero, flagsShf_no_carry]

end Sys2Proof.Machine
end

section
/-! Store and push (45_str_push.md): the effective addresses, what an instruction with a data access answers, the word a store
leaves and what it keeps, and PUSH undone by POP. -/

namespace Sys2Proof.Machine

/-! ## Effective addresses (45_str_push.md R125) -/

/-- All terms of the address are the words of their integer values, and taking the word commutes with sum and product. -/
theorem State.eaPcRel_eq_ofInt (s : State) (imm7 : BitVec 7) :
    s.eaPcRel imm7 = BitVec.ofInt 16 ((s.reg 15).toNat + 2 + 2 * imm7.toInt) := by
  have hpc : BitVec.ofInt 16 (s.reg 15).toNat = s.pc := by
    rw [BitVec.ofInt_natCast, BitVec.ofNat_toNat, BitVec.setWidth_eq, State.pc]
  have hfield : BitVec.ofInt 16 imm7.toInt = sext7 imm7 := rfl
  rw [BitVec.ofInt_add, BitVec.ofInt_add, BitVec.ofInt_mul, hpc, hfield]
  rfl

/-- Settles O17: an even program counter makes the whole sum even, and so does its remainder by the even 2^16. -/
theorem pcRelativeAddressFormula : Obligations.PcRelativeAddressFormula := by
  refine fun s imm7 => ⟨s.eaPcRel_eq_ofInt imm7, fun heven => ?_⟩
  rw [State.eaPcRel_eq_ofInt, BitVec.toNat_ofInt]
  omega

/-- 45_str_push.md R129: the address of PUSH, without subtraction. -/
theorem State.toNat_eaPush (s : State) : s.eaPush.toNat = ((s.reg Reg.sp).toNat + 65534) % 65536 := by
  rw [State.eaPush, BitVec.toNat_sub, Nat.add_comm]
  rfl

/-! ## An instruction with a data access -/

theorem State.dataFault_of_dataAccess {s : State} {i : Instr} {k : AccessKind} {ea : Word}
    (haccess : dataAccess s i = some (k, ea)) : s.dataFault i = s.accessFault k ea := by
  rw [State.dataFault, haccess]
  rfl

/-- An instruction whose data access is performed completes. -/
theorem exec_of_accessible {s : State} {i : Instr} {k : AccessKind} {ea : Word}
    (haccess : dataAccess s i = some (k, ea)) (hea : s.accessible ea) : exec i s = .next (s.completed i) := by
  rw [exec_eq, State.dataFault_of_dataAccess haccess, State.accessFault_eq_none.2 hea]
  rfl

/-- An instruction whose data access faults takes that fault. -/
theorem exec_of_accessFault {s : State} {i : Instr} {k : AccessKind} {ea : Word} {c : Cause}
    (haccess : dataAccess s i = some (k, ea)) (hfault : s.accessFault k ea = some c) :
    exec i s = .next (s.faulted c) := by
  rw [exec_eq, State.dataFault_of_dataAccess haccess, hfault]
  rfl

theorem faultsWhereInaccessible_of_dataAccess {s : State} {i : Instr} {k : AccessKind} {ea : Word}
    (haccess : dataAccess s i = some (k, ea)) : FaultsWhereInaccessible i k ea s :=
  ⟨fun hodd => exec_of_accessFault haccess (State.accessFault_odd hodd),
    fun heven hout => exec_of_accessFault haccess (State.accessFault_out heven hout)⟩

/-! ## Stores -/

/-- Whichever instruction stores the word at `ea`, it keeps all but that word and its destinations. -/
theorem State.completed_frameStore {s : State} {i : Instr} {ea v : Word} (hflags : writesFlags i = false)
    (hmem : (s.completed i).mem = Memory.writeWord s.mem ea.toNat v) :
    FrameStore (destinations i) ea s (s.completed i) := by
  have hbytes : SameMemBut ea s (s.completed i) := fun a hlo hhi => by
    rw [hmem, Memory.read_writeWord_of_ne hlo hhi]
  exact ⟨fun _ => State.completed_reg_of_not_mem, State.completed_flags hflags, hbytes,
    s.completed_status i, s.completed_ramSize i⟩

/-- An instruction that stores `v` at `ea` and writes no flag, whichever its form: where it completes it leaves `v` there and
its frame, and elsewhere it faults. -/
theorem exec_store_frame {s : State} {i : Instr} {ea v : Word} (haccess : dataAccess s i = some (.store, ea))
    (hflags : writesFlags i = false) (hmem : (s.completed i).mem = Memory.writeWord s.mem ea.toNat v) :
    (s.accessible ea → ∃ t, exec i s = .next t ∧
      Memory.readWord t.mem ea.toNat = v ∧ FrameStore (destinations i) ea s t) ∧
    FaultsWhereInaccessible i .store ea s := by
  have hword : Memory.readWord (s.completed i).mem ea.toNat = v := by rw [hmem, Memory.readWord_writeWord_self]
  exact ⟨fun hea => ⟨_, exec_of_accessible haccess hea, hword, State.completed_frameStore hflags hmem⟩,
    faultsWhereInaccessible_of_dataAccess haccess⟩

/-- Settles O26: a store of `x[rd]` at the address in `x[rm]`. -/
theorem strRegisterStoresOneWord : Obligations.StrRegisterStoresOneWord := by
  intro s rd rm
  have haccess : dataAccess s (.strR rd rm) = some (.store, s.eaReg rm) := rfl
  have hmem : (s.completed (.strR rd rm)).mem = Memory.writeWord s.mem (s.eaReg rm).toNat (s.reg rd) := rfl
  exact exec_store_frame haccess rfl hmem

/-- Settles O27: a store of `x[rd]` at the PC-relative address. -/
theorem strImmediateStoresOneWord : Obligations.StrImmediateStoresOneWord := by
  intro s rd imm7
  have haccess : dataAccess s (.strI rd imm7) = some (.store, s.eaPcRel imm7) := rfl
  have hmem : (s.completed (.strI rd imm7)).mem = Memory.writeWord s.mem (s.eaPcRel imm7).toNat (s.reg rd) := rfl
  exact exec_store_frame haccess rfl hmem

/-! ## PUSH and POP -/

theorem State.completed_push_mem (s : State) (rd : Reg) :
    (s.completed (.push rd)).mem = Memory.writeWord s.mem s.eaPush.toNat (s.reg rd) := rfl

/-- The pushed word is the old `x[rd]`, for `push sr` too (decision D14). -/
theorem State.completed_push_readWord (s : State) (rd : Reg) :
    Memory.readWord (s.completed (.push rd)).mem s.eaPush.toNat = s.reg rd := by
  rw [State.completed_push_mem, Memory.readWord_writeWord_self]

theorem State.completed_push_sp (s : State) (rd : Reg) : (s.completed (.push rd)).reg Reg.sp = s.eaPush :=
  State.reg_setReg_self ..

theorem exec_push_of_accessible {s : State} (rd : Reg) (hea : s.accessible s.eaPush) :
    exec (.push rd) s = .next (s.completed (.push rd)) := exec_of_accessible (k := .store) rfl hea

/-- Settles O28: a store of the old `x[rd]` below the stack pointer, which moves to it. -/
theorem pushStoresBelowStackPointer : Obligations.PushStoresBelowStackPointer := by
  intro s rd
  have hfaults : FaultsWhereInaccessible (.push rd) .store s.eaPush s := faultsWhereInaccessible_of_dataAccess rfl
  have hframe : FrameStore [Reg.sp] s.eaPush s (s.completed (.push rd)) :=
    State.completed_frameStore rfl (s.completed_push_mem rd)
  exact ⟨s.toNat_eaPush, fun hea => ⟨_, exec_push_of_accessible rd hea, s.completed_push_readWord rd,
    s.completed_push_sp rd, hframe⟩, hfaults⟩

theorem exec_pop_of_accessible {s : State} (rd : Reg) (hea : s.accessible s.eaPop) :
    exec (.pop rd) s = .next (s.completed (.pop rd)) := exec_of_accessible (k := .load) rfl hea

theorem State.completed_pop_mem (s : State) (rd : Reg) : (s.completed (.pop rd)).mem = s.mem := rfl

/-- 46_ldr_pop.md R137: the stack pointer advances from its old value, if POP has not loaded it. -/
theorem State.completed_pop_sp {s : State} {rd : Reg} (h : rd ≠ Reg.sp) :
    (s.completed (.pop rd)).reg Reg.sp = s.reg Reg.sp + 2#16 := by
  rw [State.completed, State.advanceSp, State.reg_setReg_self, State.reg_setReg_of_ne h.symm]

/-- 46_ldr_pop.md R137: the loaded word stays in `x[rd]`, if that is not the stack pointer. -/
theorem State.completed_pop_reg {s : State} {rd : Reg} (h : rd ≠ Reg.sp) :
    (s.completed (.pop rd)).reg rd = Memory.readWord s.mem s.eaPop.toNat := by
  rw [State.completed, State.advanceSp, State.reg_setReg_of_ne h, State.reg_setReg_self]

/-- POP reads where PUSH has stored. -/
theorem State.completed_push_eaPop (s : State) (rd : Reg) : (s.completed (.push rd)).eaPop = s.eaPush :=
  s.completed_push_sp rd

/-- Settles O32: POP loads the word PUSH stored, and adds the 2 that PUSH subtracted. -/
theorem popUndoesPush : Obligations.PopUndoesPush := by
  intro s ra rb hea hrb
  have hpop : (s.completed (.push ra)).accessible (s.completed (.push ra)).eaPop := by
    rwa [State.completed_push_eaPop, State.accessible, State.completed_ramSize]
  refine ⟨_, _, exec_push_of_accessible ra hea, exec_pop_of_accessible rb hpop, ?_, ?_, ?_⟩
  · rw [State.completed_pop_sp hrb, State.completed_push_sp]
    exact BitVec.sub_add_cancel _ _
  · rw [State.completed_pop_reg hrb, State.completed_push_eaPop, State.completed_push_readWord]
  · rw [State.completed_pop_mem, State.completed_push_readWord]

end Sys2Proof.Machine
end

section
/-! Load and pop (46_ldr_pop.md): the word a load leaves, what it keeps, and `pop sr`. -/

namespace Sys2Proof.Machine

/-! ## Loads -/

/-- Whichever instruction writes neither flags nor memory, it keeps all but its destinations. -/
theorem State.completed_frameRegs {s : State} {i : Instr} (hflags : writesFlags i = false)
    (hmem : (s.completed i).mem = s.mem) : FrameRegs (destinations i) s (s.completed i) := by
  have hbytes : SameMem s (s.completed i) := fun a => by rw [hmem]
  exact ⟨fun _ => State.completed_reg_of_not_mem, State.completed_flags hflags, hbytes,
    s.completed_status i, s.completed_ramSize i⟩

/-- An instruction that loads the word at `ea` into its one destination, whichever its form: where it completes it leaves that
word there and its frame, and elsewhere it faults. -/
theorem exec_load_frame {s : State} {i : Instr} {rd : Reg} {ea : Word} (haccess : dataAccess s i = some (.load, ea))
    (hdest : destinations i = [rd]) (hflags : writesFlags i = false)
    (hload : s.completed i = s.setReg rd (Memory.readWord s.mem ea.toNat)) :
    (s.accessible ea → ∃ t, exec i s = .next t ∧
      t.reg rd = Memory.readWord s.mem ea.toNat ∧ FrameRegs [rd] s t) ∧
    FaultsWhereInaccessible i .load ea s := by
  have hword : (s.completed i).reg rd = Memory.readWord s.mem ea.toNat := by rw [hload, State.reg_setReg_self]
  have hmem : (s.completed i).mem = s.mem := by rw [hload, State.setReg_mem]
  have hframe : FrameRegs [rd] s (s.completed i) := hdest ▸ State.completed_frameRegs hflags hmem
  exact ⟨fun hea => ⟨_, exec_of_accessible haccess hea, hword, hframe⟩, faultsWhereInaccessible_of_dataAccess haccess⟩

/-- Settles O29: a load into `x[rd]` from the address in `x[rm]`. -/
theorem ldrRegisterLoadsOneWord : Obligations.LdrRegisterLoadsOneWord := by
  intro s rd rm
  have haccess : dataAccess s (.ldrR rd rm) = some (.load, s.eaReg rm) := rfl
  have hload : s.completed (.ldrR rd rm) = s.setReg rd (Memory.readWord s.mem (s.eaReg rm).toNat) := rfl
  exact exec_load_frame haccess rfl rfl hload

/-- Settles O30: a load into `x[rd]` from the PC-relative address. -/
theorem ldrImmediateLoadsOneWord : Obligations.LdrImmediateLoadsOneWord := by
  intro s rd imm7
  have haccess : dataAccess s (.ldrI rd imm7) = some (.load, s.eaPcRel imm7) := rfl
  have hload : s.completed (.ldrI rd imm7) = s.setReg rd (Memory.readWord s.mem (s.eaPcRel imm7).toNat) := rfl
  exact exec_load_frame haccess rfl rfl hload

/-! ## POP -/

/-- `pop sr` advances the word it has loaded (decision D15). -/
theorem State.completed_pop_sp_self (s : State) :
    (s.completed (.pop Reg.sp)).reg Reg.sp = Memory.readWord s.mem s.eaPop.toNat + 2#16 := by
  rw [State.completed, State.advanceSp, State.reg_setReg_self, State.reg_setReg_self]

/-- Settles O31: a load from the stack pointer, which then advances from its old value, or for `pop sr` from the loaded one. -/
theorem popLoadsAndAdvances : Obligations.PopLoadsAndAdvances := by
  intro s rd
  have hframe : FrameRegs [rd, Reg.sp] s (s.completed (.pop rd)) :=
    State.completed_frameRegs rfl (s.completed_pop_mem rd)
  refine ⟨fun hea => ⟨_, exec_pop_of_accessible rd hea, fun hrd => ?_, fun hrd => ?_, hframe⟩,
    faultsWhereInaccessible_of_dataAccess rfl⟩
  · exact ⟨State.completed_pop_reg hrd, State.completed_pop_sp hrd⟩
  · subst hrd
    exact s.completed_pop_sp_self

end Sys2Proof.Machine
end

section
/-! The words that do not decode (60_exceptions.md R143, R147), and words the spec writes out. -/

namespace Sys2Proof

/-! ## Decode faults -/

theorem shiftKindOf_eq_none_iff {t : BitVec 3} : shiftKindOf t = none ↔ t = 0b011#3 ∨ t = 0b111#3 := by
  revert t
  decide

/-- Within a family the Shf words of no mode alone do not decode, and for one reason. -/
theorem decodeFamily_eq_error_iff {f : Family} {w : Word} {e : DecodeFault} :
    decodeFamily f w = .error e ↔ f = .shf ∧ shiftKindOf (fieldMode w) = none ∧ e = .illegalShiftMode := by
  cases f with
  | add | mul | xor | strPush | ldrPop => simp [decodeFamily]
  | shf => cases hk : shiftKindOf (fieldMode w) <;> simp [decodeFamily, hk, @eq_comm _ e]

theorem decode_eq_illegalOpcode_iff {w : Word} : decode w = .error .illegalOpcode ↔ familyOf (fieldOp w) = none := by
  cases hf : familyOf (fieldOp w) <;> simp [decode, hf, decodeFamily_eq_error_iff]

theorem decode_eq_illegalShiftMode_iff {w : Word} : decode w = .error .illegalShiftMode ↔
    fieldOp w = opcodeOf .shf ∧ shiftKindOf (fieldMode w) = none := by
  rw [← familyOf_eq_some_iff]
  cases hf : familyOf (fieldOp w) <;> simp [decode, hf, decodeFamily_eq_error_iff]

/-- Settles O2: the unassigned nibbles are those of no family. -/
theorem illegalOpcodeIffUnassignedNibble : Obligations.IllegalOpcodeIffUnassignedNibble := by
  intro w
  rw [decode_eq_illegalOpcode_iff, familyOf_eq_none_iff, toNat_fieldOp]

/-- The mask of opcode and mode, which leaves out the source bit. -/
theorem and_opcodeModeMask_iff (w : Word) (op : BitVec 4) (t : BitVec 3) :
    w &&& 0xF070#16 = ofFields op 0#4 false t 0#4 ↔ fieldOp w = op ∧ fieldMode w = t := by
  obtain ⟨op', rd, s, t', low, rfl⟩ := exists_ofFields w
  have hmask : 0xF070#16 = ofFields (BitVec.allOnes 4) 0#4 false (BitVec.allOnes 3) 0#4 := rfl
  rw [hmask, ofFields_and, BitVec.and_allOnes, BitVec.and_allOnes]
  simp [ofFields_inj]

/-- Settles O3: the two patterns are the opcode of Shf with each of the two modes of no operation. -/
theorem illegalShiftModeIffInvalidMode : Obligations.IllegalShiftModeIffInvalidMode := by
  intro w
  have hmode3 : w &&& 0xF070#16 = 0xE030#16 ↔ fieldOp w = opcodeOf .shf ∧ fieldMode w = 0b011#3 :=
    and_opcodeModeMask_iff w 0b1110#4 0b011#3
  have hmode7 : w &&& 0xF070#16 = 0xE070#16 ↔ fieldOp w = opcodeOf .shf ∧ fieldMode w = 0b111#3 :=
    and_opcodeModeMask_iff w 0b1110#4 0b111#3
  rw [decode_eq_illegalShiftMode_iff, shiftKindOf_eq_none_iff, hmode3, hmode7, and_or_left]

/-! ## Words written out -/

theorem decode_of_encode_eq {w : Word} {i : Instr} (h : encode i = w) : decode w = .ok i :=
  h ▸ decodeOfEncodeIsIdentity i

/-- Settles O8: each of the ten is the canonical word of its instruction. -/
theorem writtenOutWordsDecode : Obligations.WrittenOutWordsDecode :=
  ⟨decode_of_encode_eq (by decide), decode_of_encode_eq (by decide), decode_of_encode_eq (by decide),
    decode_of_encode_eq (by decide), decode_of_encode_eq (by decide), decode_of_encode_eq (by decide),
    decode_of_encode_eq (by decide), decode_of_encode_eq (by decide), decode_of_encode_eq (by decide),
    decode_of_encode_eq (by decide)⟩

end Sys2Proof
end

section
/-! The fatal conditions (60_exceptions.md): their codes, where each phase of a step meets them, and what a step that takes one
leaves. -/

namespace Sys2Proof.Machine

/-! ## Cause codes (60_exceptions.md R142) -/

/-- The number of a cause (decision D12). -/
def Cause.code : Cause → Nat
  | .illegalOpcode _ _ => 1
  | .illegalShiftMode _ _ => 2
  | .misalignedAccess _ _ _ => 3
  | .outOfBoundsAccess _ _ _ => 4

theorem State.statusCode_of_run {s : State} (h : s.status = .run) : s.statusCode = 0 := by
  rw [State.statusCode, h]

@[simp] theorem State.statusCode_faulted (s : State) (c : Cause) : (s.faulted c).statusCode = c.code := by
  cases c <;> rfl

/-- Settles O13: the code of a machine in FAULT is that of its cause. -/
theorem causeCodesAreNumbered : Obligations.CauseCodesAreNumbered := fun s p x k =>
  ⟨State.statusCode_of_run, s.statusCode_faulted (.illegalOpcode p x), s.statusCode_faulted (.illegalShiftMode p x),
    s.statusCode_faulted (.misalignedAccess p x k), s.statusCode_faulted (.outOfBoundsAccess p x k)⟩

/-! ## Faults of a data access -/

/-- The fault of an access, odd before out of bounds (decision D13). -/
theorem State.accessFault_eq_ite (s : State) (k : AccessKind) (a : Word) :
    s.accessFault k a =
      if a.toNat % 2 = 1 then some (.misalignedAccess s.pc a k)
      else if s.ramSize ≤ a.toNat then some (.outOfBoundsAccess s.pc a k)
      else none := by
  simp only [State.accessFault, lsb_eq_odd, decide_eq_true_eq]

/-- The status after execution tells the fault of the data access. -/
theorem exec_status {s : State} (hrun : s.status = .run) (i : Instr) :
    ∃ t, exec i s = .next t ∧ t.status = (s.dataFault i).elim .run .fault := by
  refine ⟨_, exec_eq i s, ?_⟩
  cases s.dataFault i with
  | none => exact (s.completed_status i).trans hrun
  | some c => exact s.raiseFault_status c

/-- Settles O36: the fault of an instruction is that of its one data access, if it has one. -/
theorem dataFaultsAreExactlyBadAccesses : Obligations.DataFaultsAreExactlyBadAccesses := by
  intro i s hrun
  obtain ⟨t, hexec, hstatus⟩ := exec_status hrun i
  refine ⟨t, hexec, hstatus.trans ?_⟩
  cases haccess : dataAccess s i with
  | none =>
    rw [State.dataFault, haccess]
    rfl
  | some access =>
    obtain ⟨k, ea⟩ := access
    rw [State.dataFault_of_dataAccess haccess, State.accessFault_eq_ite]
    dsimp only
    split_ifs <;> rfl

/-! ## Faults of fetch and decode -/

theorem State.fetchInstr_of_accessFault {s : State} {c : Cause} (h : s.accessFault .fetch s.pc = some c) :
    s.fetchInstr = .error c := by
  rw [State.fetchInstr, State.fetch, State.memRead_of_fault h]

theorem State.fetchInstr_of_decode_error {s : State} {e : DecodeFault} (hpc : s.accessible s.pc)
    (hdecode : decode (Memory.readWord s.mem s.pc.toNat) = .error e) :
    s.fetchInstr = .error (decodeCause s.pc (Memory.readWord s.mem s.pc.toNat) e) := by
  rw [State.fetchInstr_of_accessible hpc, State.decodeAt, hdecode]

/-- Settles O40: the fetch faults as an access at the program counter does, and is followed by the decoding of its word. -/
theorem fetchAndDecodeFaultsInOrder : Obligations.FetchAndDecodeFaultsInOrder := fun _ hrun =>
  ⟨fun hodd => step_of_error hrun (State.fetchInstr_of_accessFault (State.accessFault_odd hodd)),
    fun heven hout => step_of_error hrun (State.fetchInstr_of_accessFault (State.accessFault_out heven hout)),
    fun hpc hdecode => step_of_error hrun (State.fetchInstr_of_decode_error hpc hdecode),
    fun hpc hdecode => step_of_error hrun (State.fetchInstr_of_decode_error hpc hdecode)⟩

/-! ## Precision -/

theorem Cause.pc_of_trueOf {s : State} {c : Cause} (h : c.trueOf s) : c.pc = s.pc := by
  cases c with
  | illegalOpcode p w | illegalShiftMode p w | misalignedAccess p a k | outOfBoundsAccess p a k =>
    obtain ⟨hpc, _⟩ := h
    exact hpc

/-- Settles O41: of the outcomes of a step in `RUN` one alone leaves FAULT, and there the cause is true of the state before. -/
theorem faultsArePrecise : Obligations.FaultsArePrecise := by
  intro s t c hrun h hfault
  rcases step_cases s with ⟨d, hstatus, _⟩ | ⟨d, _, hd, hstep⟩ | ⟨i, _, _, hstep⟩
  · exact nomatch hrun.symm.trans hstatus
  · cases hstep.symm.trans h
    cases hfault
    exact ⟨rfl, Cause.pc_of_trueOf (State.instrOrFault_trueOf hd)⟩
  · cases hstep.symm.trans h
    exact nomatch hfault.symm.trans ((s.afterInstr_status i).trans hrun)

end Sys2Proof.Machine
end

section
/-! `Reset(INIT_MEM)` (10_state.md R23, 70_reset_and_hazards.md R165): the memory built from the image, word by word from the
highest, and the state left. -/

namespace Sys2Proof.Machine

theorem Memory.read_of_not_listed {m : Memory} {a : Nat} (h : ∀ c ∈ m, c.1 ≠ a) :
    Memory.read m a = Config.blankByte := by
  induction m with
  | nil => rfl
  | cons c m ih =>
    obtain ⟨hc, hm⟩ := List.forall_mem_cons.1 h
    rw [Memory.read, if_neg hc, ih hm]

/-! ## A word before a memory of higher addresses -/

/-- The two bytes of a word put before a memory whose addresses are all higher. -/
def Memory.prependWord (a : Nat) (w : Word) (m : Memory) : Memory :=
  Memory.prepend a (loByte w) (Memory.prepend (a + 1) (hiByte w) m)

theorem Memory.ofWordsBefore_succ (f : Nat → Word) (n : Nat) (m : Memory) :
    Memory.ofWordsBefore f (n + 1) m = Memory.ofWordsBefore f n (Memory.prependWord (2 * n) (f (2 * n)) m) := rfl

theorem Memory.mem_prependWord {a : Nat} {w : Word} {m : Memory} {c : Host.Cell}
    (h : c ∈ Memory.prependWord a w m) : c.1 = a ∨ c.1 = a + 1 ∨ c ∈ m :=
  (Memory.mem_prepend h).imp_right Memory.mem_prepend

section
variable {a : Nat} {m : Memory} (habove : ∀ c ∈ m, a + 2 ≤ c.1)
include habove

theorem Memory.le_of_mem_prependWord {w : Word} : ∀ c ∈ Memory.prependWord a w m, a ≤ c.1 := by
  intro c hc
  rcases Memory.mem_prependWord hc with hlo | hhi | hm
  · omega
  · omega
  · have := habove c hm
    omega

theorem Memory.lt_of_mem_prepend_succ {b : Byte} : ∀ c ∈ Memory.prepend (a + 1) b m, a < c.1 := by
  intro c hc
  rcases Memory.mem_prepend hc with hhi | hm
  · omega
  · have := habove c hm
    omega

theorem Memory.prependWord_wf {w : Word} (hwf : Memory.wf m) : Memory.wf (Memory.prependWord a w m) :=
  Memory.prepend_wf (Memory.prepend_wf hwf habove) (Memory.lt_of_mem_prepend_succ habove)

/-- Reading any byte after a word was put before the memory. -/
theorem Memory.read_prependWord (w : Word) (b : Nat) : Memory.read (Memory.prependWord a w m) b =
    if b = a then loByte w else if b = a + 1 then hiByte w else Memory.read m b := by
  have hhi : Memory.read m (a + 1) = Config.blankByte :=
    Memory.read_of_not_listed fun c hc => Nat.ne_of_gt (habove c hc)
  have hlo : Memory.read (Memory.prepend (a + 1) (hiByte w) m) a = Config.blankByte :=
    Memory.read_of_not_listed fun c hc => (Memory.lt_of_mem_prepend_succ habove c hc).ne'
  rw [Memory.prependWord, Memory.read_prepend _ _ _ _ hlo, Memory.read_prepend _ _ _ _ hhi]

theorem Memory.readWord_prependWord_self (w : Word) : Memory.readWord (Memory.prependWord a w m) a = w := by
  simp [Memory.readWord, Memory.read_prependWord habove]

theorem Memory.readWord_prependWord_of_le (w : Word) {b : Nat} (hb : a + 2 ≤ b) :
    Memory.readWord (Memory.prependWord a w m) b = Memory.readWord m b := by
  have hread (b : Nat) (hb : a + 2 ≤ b) : Memory.read (Memory.prependWord a w m) b = Memory.read m b := by
    rw [Memory.read_prependWord habove, if_neg (by omega), if_neg (by omega)]
  rw [Memory.readWord, hread b hb, hread (b + 1) (by omega), Memory.readWord]

end

/-! ## The words below a word index -/

theorem Memory.mem_ofWordsBefore {f : Nat → Word} {n : Nat} {m : Memory} {c : Host.Cell}
    (h : c ∈ Memory.ofWordsBefore f n m) : c.1 < 2 * n ∨ c ∈ m := by
  induction n generalizing m with
  | zero => exact .inr h
  | succ n ih =>
    rcases ih h with hlt | hmem
    · exact .inl (by omega)
    · rcases Memory.mem_prependWord hmem with hlo | hhi | hm
      · exact .inl (by omega)
      · exact .inl (by omega)
      · exact .inr hm

theorem Memory.ofWordsBefore_wf (f : Nat → Word) {n : Nat} {m : Memory} (hwf : Memory.wf m)
    (habove : ∀ c ∈ m, 2 * n ≤ c.1) : Memory.wf (Memory.ofWordsBefore f n m) := by
  induction n generalizing m with
  | zero => exact hwf
  | succ n ih => exact ih (Memory.prependWord_wf habove hwf) (Memory.le_of_mem_prependWord habove)

theorem Memory.readWord_ofWordsBefore_of_le (f : Nat → Word) {n a : Nat} {m : Memory} (habove : ∀ c ∈ m, 2 * n ≤ c.1)
    (ha : 2 * n ≤ a) : Memory.readWord (Memory.ofWordsBefore f n m) a = Memory.readWord m a := by
  induction n generalizing m with
  | zero => rfl
  | succ n ih =>
    have hlower : ∀ c ∈ Memory.prependWord (2 * n) (f (2 * n)) m, 2 * n ≤ c.1 := Memory.le_of_mem_prependWord habove
    rw [Memory.ofWordsBefore_succ, ih hlower (by omega), Memory.readWord_prependWord_of_le (a := 2 * n) habove _ ha]

/-- The word at each even address below the index is that of the image: the words put before it later are lower. -/
theorem Memory.readWord_ofWordsBefore (f : Nat → Word) {n a : Nat} {m : Memory} (habove : ∀ c ∈ m, 2 * n ≤ c.1)
    (heven : a % 2 = 0) (ha : a < 2 * n) : Memory.readWord (Memory.ofWordsBefore f n m) a = f a := by
  induction n generalizing m with
  | zero => omega
  | succ n ih =>
    have hlower : ∀ c ∈ Memory.prependWord (2 * n) (f (2 * n)) m, 2 * n ≤ c.1 := Memory.le_of_mem_prependWord habove
    rw [Memory.ofWordsBefore_succ]
    by_cases hlt : a < 2 * n
    · exact ih hlower hlt
    · obtain rfl : a = 2 * n := by omega
      rw [Memory.readWord_ofWordsBefore_of_le f hlower le_rfl, Memory.readWord_prependWord_self (a := 2 * n) habove]

/-! ## The image of a RAM -/

theorem Memory.ofWords_wf (f : Nat → Word) (size : Nat) : Memory.wf (Memory.ofWords f size) :=
  Memory.ofWordsBefore_wf f Memory.reset_wf nofun

theorem Memory.ofWords_bounded (f : Nat → Word) (size : Nat) : ∀ c ∈ Memory.ofWords f size, c.1 < size := by
  intro c hc
  have hlt : c.1 < 2 * (size / 2) := (Memory.mem_ofWordsBefore hc).resolve_right List.not_mem_nil
  omega

theorem Memory.readWord_ofWords (f : Nat → Word) {size a : Nat} (hsize : size % 2 = 0) (heven : a % 2 = 0)
    (ha : a < size) : Memory.readWord (Memory.ofWords f size) a = f a :=
  Memory.readWord_ofWordsBefore f nofun heven (by omega)

/-! ## The state after reset -/

theorem State.resetTo_reg (s : State) (initMem : Nat → Word) (r : Reg) : (s.resetTo initMem).reg r = 0#16 := by
  simp [State.reg, State.resetTo, State.reset]

/-- Reset establishes the invariant, from a state that need not meet it. -/
theorem State.resetTo_inv {s : State} (hsize : Config.legalRamSize s.ramSize) (initMem : Nat → Word) :
    (s.resetTo initMem).Inv :=
  ⟨hsize, Memory.ofWords_wf initMem s.ramSize, Memory.ofWords_bounded initMem s.ramSize, nofun⟩

/-- Settles O48: all fields but memory and `RAM_SIZE` are those of `State.reset`, and memory is the image. -/
theorem resetLeavesStatedValues : Obligations.ResetLeavesStatedValues := by
  intro s initMem hsize
  have ⟨hsizeEven, _⟩ := hsize
  have hwords (a : Nat) (heven : a % 2 = 0) (ha : a < s.ramSize) :
      Memory.readWord (s.resetTo initMem).mem a = initMem a :=
    Memory.readWord_ofWords initMem hsizeEven heven ha
  exact ⟨s.resetTo_reg initMem, rfl, rfl, hwords, State.resetTo_inv hsize initMem⟩

end Sys2Proof.Machine
end
